-- ==== Sys2Proof/Word.lean ====
section
/-! DEFINITION. The widths of the core: bytes, 16-bit words, the instruction fields (spec/00_scope.md R9,
spec/30_encoding.md R71). Every value is unsigned (R12). -/

namespace Sys2Proof

/-- A byte: a general register, a timer, a memory cell, SP, the `kk` field (R9, R71). -/
abbrev Byte := BitVec 8

/-- A 16-bit value: an instruction word, PC, I, a stack slot (R9). -/
abbrev Word := BitVec 16

/-- A 12-bit address field `nnn` (R71). -/
abbrev Addr12 := BitVec 12

/-- A nibble of an instruction word (R11); the sprite height `n` (R71). -/
abbrev Nibble := BitVec 4

/-- The number of a general register, a field `x` or `y`; every number names a register (R72). -/
abbrev RegNum := BitVec 4

/-- The number of VF, the register that doubles as the flag (R22). -/
abbrev VF : RegNum := 0xF#4

end Sys2Proof
end

