-- ==== Sys2Proof/Syntax.lean ====
section
/-! DEFINITION. The instructions: one constructor per row of spec/opcode_table.json, in the table's order, with the
fields of spec/30_encoding.md R71 and R73. -/

namespace Sys2Proof

/-- The instructions of R74. `x` and `y` number registers, `kk` is a byte immediate, `n` a sprite height, `nnn` an
address; `shr` and `shl` carry the encoded `y` that they ignore (R80). -/
inductive Instr where
  /-- 00E0, R161. -/
  | cls
  /-- 00EE, R101. -/
  | ret
  /-- 1nnn, R102. -/
  | jp (nnn : Addr12)
  /-- 2nnn, R103. -/
  | call (nnn : Addr12)
  /-- 3xkk, R104. -/
  | seImm (x : RegNum) (kk : Byte)
  /-- 4xkk, R105. -/
  | sneImm (x : RegNum) (kk : Byte)
  /-- 5xy0, R106. -/
  | seReg (x y : RegNum)
  /-- 6xkk, R121. -/
  | ldImm (x : RegNum) (kk : Byte)
  /-- 7xkk, R122. -/
  | addImm (x : RegNum) (kk : Byte)
  /-- 8xy0, R123. -/
  | ldReg (x y : RegNum)
  /-- 8xy1, R124. -/
  | orReg (x y : RegNum)
  /-- 8xy2, R125. -/
  | andReg (x y : RegNum)
  /-- 8xy3, R126. -/
  | xorReg (x y : RegNum)
  /-- 8xy4, R127. -/
  | addReg (x y : RegNum)
  /-- 8xy5, R128. -/
  | subReg (x y : RegNum)
  /-- 8xy6, R129; `y` is encoded and ignored. -/
  | shr (x y : RegNum)
  /-- 8xy7, R130. -/
  | subnReg (x y : RegNum)
  /-- 8xyE, R131; `y` is encoded and ignored. -/
  | shl (x y : RegNum)
  /-- 9xy0, R107. -/
  | sneReg (x y : RegNum)
  /-- Annn, R141. -/
  | ldI (nnn : Addr12)
  /-- Bnnn, R108. -/
  | jpV0 (nnn : Addr12)
  /-- Cxkk, R132. -/
  | rnd (x : RegNum) (kk : Byte)
  /-- Dxyn, R162. -/
  | drw (x y : RegNum) (n : Nibble)
  /-- Ex9E, R181. -/
  | skp (x : RegNum)
  /-- ExA1, R182. -/
  | sknp (x : RegNum)
  /-- Fx07, R184. -/
  | ldVxDt (x : RegNum)
  /-- Fx0A, R183. -/
  | ldVxK (x : RegNum)
  /-- Fx15, R185. -/
  | ldDtVx (x : RegNum)
  /-- Fx18, R186. -/
  | ldStVx (x : RegNum)
  /-- Fx1E, R142. -/
  | addI (x : RegNum)
  /-- Fx29, R143. -/
  | ldF (x : RegNum)
  /-- Fx33, R144. -/
  | bcd (x : RegNum)
  /-- Fx55, R145. -/
  | storeRegs (x : RegNum)
  /-- Fx65, R146. -/
  | loadRegs (x : RegNum)
  /-- Every other word, R95; `w` is the word itself. -/
  | unhandled (w : Word)
  deriving DecidableEq, Repr

/-- The mnemonic of an instruction, as spec/opcode_table.json spells it (a label: no behaviour depends on it, R80). -/
def Instr.mnemonic : Instr → String
  | .cls => "CLS"
  | .ret => "RET"
  | .jp _ => "JP_nnn"
  | .call _ => "CALL_nnn"
  | .seImm _ _ => "SE_Vx__kk"
  | .sneImm _ _ => "SNE_Vx__kk"
  | .seReg _ _ => "SE_Vx__Vy"
  | .ldImm _ _ => "LD_Vx__kk"
  | .addImm _ _ => "ADD_Vx__kk"
  | .ldReg _ _ => "LD_Vx__Vy"
  | .orReg _ _ => "OR_Vx__Vy"
  | .andReg _ _ => "AND_Vx__Vy"
  | .xorReg _ _ => "XOR_Vx__Vy"
  | .addReg _ _ => "ADD_Vx__Vy"
  | .subReg _ _ => "SUB_Vx__Vy"
  | .shr _ _ => "SHR_Vx"
  | .subnReg _ _ => "SUBN_Vx__Vy"
  | .shl _ _ => "SHL_Vx"
  | .sneReg _ _ => "SNE_Vx__Vy"
  | .ldI _ => "LD_I__nnn"
  | .jpV0 _ => "JP_V0__nnn"
  | .rnd _ _ => "RND_Vx__kk"
  | .drw _ _ _ => "DRW_Vx__Vy__n"
  | .skp _ => "SKP_Vx"
  | .sknp _ => "SKNP_Vx"
  | .ldVxDt _ => "LD_Vx__DT"
  | .ldVxK _ => "LD_Vx__K"
  | .ldDtVx _ => "LD_DT__Vx"
  | .ldStVx _ => "LD_ST__Vx"
  | .addI _ => "ADD_I__Vx"
  | .ldF _ => "LD_F__Vx"
  | .bcd _ => "BCD_Vx"
  | .storeRegs _ => "LD__I___Vx"
  | .loadRegs _ => "LD_Vx___I"
  | .unhandled _ => "UNHANDLED"

end Sys2Proof
end

