-- ==== Sys2Proof/Decode.lean ====
section
/-! DEFINITION. The bit fields of an instruction word, the decoder and the encoder (spec/30_encoding.md). -/

namespace Sys2Proof

/-! ### Fields of a word (R11, R71) -/

/-- `op` = `nibble0` = w[15:12]. -/
def opOf (w : Word) : Nibble := w.extractLsb' 12 4
/-- `x` = `nibble1` = w[11:8]. -/
def xOf (w : Word) : RegNum := w.extractLsb' 8 4
/-- `y` = `nibble2` = w[7:4]. -/
def yOf (w : Word) : RegNum := w.extractLsb' 4 4
/-- `n` = `nibble3` = w[3:0]. -/
def nOf (w : Word) : Nibble := w.extractLsb' 0 4
/-- `kk` = w[7:0]. -/
def kkOf (w : Word) : Byte := w.extractLsb' 0 8
/-- `nnn` = w[11:0]. -/
def nnnOf (w : Word) : Addr12 := w.extractLsb' 0 12

/-- A word from its bytes in the order memory holds them: big-endian, the lower address first (R52, R70). -/
def wordOfBytes (hi lo : Byte) : Word := hi ++ lo
/-- The byte of `w` at the lower address. -/
def hiByte (w : Word) : Byte := w.extractLsb' 8 8
/-- The byte of `w` at the higher address. -/
def loByte (w : Word) : Byte := w.extractLsb' 0 8

/-! ### The decoder (R74, R75) -/

/-- Group 0: only 00E0 and 00EE are instructions (R74, R78). -/
def decode0 (w : Word) : Instr :=
  if w = 0x00E0#16 then .cls else if w = 0x00EE#16 then .ret else .unhandled w

/-- Group 8, by the fixed digit `n` (R74). -/
def decode8 (w : Word) : Instr :=
  let x := xOf w
  let y := yOf w
  if nOf w = 0x0#4 then .ldReg x y
  else if nOf w = 0x1#4 then .orReg x y
  else if nOf w = 0x2#4 then .andReg x y
  else if nOf w = 0x3#4 then .xorReg x y
  else if nOf w = 0x4#4 then .addReg x y
  else if nOf w = 0x5#4 then .subReg x y
  else if nOf w = 0x6#4 then .shr x y
  else if nOf w = 0x7#4 then .subnReg x y
  else if nOf w = 0xE#4 then .shl x y
  else .unhandled w

/-- Group E, by the fixed byte `kk` (R74). -/
def decodeE (w : Word) : Instr :=
  if kkOf w = 0x9E#8 then .skp (xOf w) else if kkOf w = 0xA1#8 then .sknp (xOf w) else .unhandled w

/-- Group F, by the fixed byte `kk` (R74). -/
def decodeF (w : Word) : Instr :=
  let x := xOf w
  if kkOf w = 0x07#8 then .ldVxDt x
  else if kkOf w = 0x0A#8 then .ldVxK x
  else if kkOf w = 0x15#8 then .ldDtVx x
  else if kkOf w = 0x18#8 then .ldStVx x
  else if kkOf w = 0x1E#8 then .addI x
  else if kkOf w = 0x29#8 then .ldF x
  else if kkOf w = 0x33#8 then .bcd x
  else if kkOf w = 0x55#8 then .storeRegs x
  else if kkOf w = 0x65#8 then .loadRegs x
  else .unhandled w

/-- The decoder of R74: total on words, one instruction or the catch-all for each. -/
def decode (w : Word) : Instr :=
  if opOf w = 0x0#4 then decode0 w
  else if opOf w = 0x1#4 then .jp (nnnOf w)
  else if opOf w = 0x2#4 then .call (nnnOf w)
  else if opOf w = 0x3#4 then .seImm (xOf w) (kkOf w)
  else if opOf w = 0x4#4 then .sneImm (xOf w) (kkOf w)
  else if opOf w = 0x5#4 then if nOf w = 0x0#4 then .seReg (xOf w) (yOf w) else .unhandled w
  else if opOf w = 0x6#4 then .ldImm (xOf w) (kkOf w)
  else if opOf w = 0x7#4 then .addImm (xOf w) (kkOf w)
  else if opOf w = 0x8#4 then decode8 w
  else if opOf w = 0x9#4 then if nOf w = 0x0#4 then .sneReg (xOf w) (yOf w) else .unhandled w
  else if opOf w = 0xA#4 then .ldI (nnnOf w)
  else if opOf w = 0xB#4 then .jpV0 (nnnOf w)
  else if opOf w = 0xC#4 then .rnd (xOf w) (kkOf w)
  else if opOf w = 0xD#4 then .drw (xOf w) (yOf w) (nOf w)
  else if opOf w = 0xE#4 then decodeE w
  else decodeF w

/-- Why a byte sequence gives no instruction. -/
inductive DecodeError where
  /-- Fewer than the two bytes of an instruction (R70) are there. -/
  | truncated
  deriving DecidableEq, Repr

/-- The decoder on bytes, in the order memory holds them: the instruction and the bytes after it (R52, R70). -/
def decodeBytes : List Byte → Except DecodeError (Instr × List Byte)
  | hi :: lo :: rest => .ok (decode (wordOfBytes hi lo), rest)
  | [_] => .error .truncated
  | [] => .error .truncated

/-- What `decodeBytes` reads from an instruction of the opcode table whose bits are `w`: its one word, stored
big-endian; every bit from `nbits` up is 0. -/
def decodeTableWord (nbits w : Nat) : Option Instr :=
  let word := BitVec.ofNat 16 (w % 2 ^ nbits)
  match decodeBytes [hiByte word, loByte word] with
  | .ok (i, _) => some i
  | .error _ => none

/-! ### The encoder (R73; the encoding line of each instruction's rule) -/

/-- Format NNN. -/
def encNNN (op : Nibble) (nnn : Addr12) : Word := op ++ nnn
/-- Format XKK; with `kk` fixed, format XSUB. -/
def encXKK (op : Nibble) (x : RegNum) (kk : Byte) : Word := op ++ x ++ kk
/-- Format XYN; with `n` fixed, format XY. -/
def encXYN (op : Nibble) (x y : RegNum) (n : Nibble) : Word := op ++ x ++ y ++ n

/-- The word of an instruction. -/
def encode : Instr → Word
  | .cls => 0x00E0#16
  | .ret => 0x00EE#16
  | .jp nnn => encNNN 0x1#4 nnn
  | .call nnn => encNNN 0x2#4 nnn
  | .seImm x kk => encXKK 0x3#4 x kk
  | .sneImm x kk => encXKK 0x4#4 x kk
  | .seReg x y => encXYN 0x5#4 x y 0x0#4
  | .ldImm x kk => encXKK 0x6#4 x kk
  | .addImm x kk => encXKK 0x7#4 x kk
  | .ldReg x y => encXYN 0x8#4 x y 0x0#4
  | .orReg x y => encXYN 0x8#4 x y 0x1#4
  | .andReg x y => encXYN 0x8#4 x y 0x2#4
  | .xorReg x y => encXYN 0x8#4 x y 0x3#4
  | .addReg x y => encXYN 0x8#4 x y 0x4#4
  | .subReg x y => encXYN 0x8#4 x y 0x5#4
  | .shr x y => encXYN 0x8#4 x y 0x6#4
  | .subnReg x y => encXYN 0x8#4 x y 0x7#4
  | .shl x y => encXYN 0x8#4 x y 0xE#4
  | .sneReg x y => encXYN 0x9#4 x y 0x0#4
  | .ldI nnn => encNNN 0xA#4 nnn
  | .jpV0 nnn => encNNN 0xB#4 nnn
  | .rnd x kk => encXKK 0xC#4 x kk
  | .drw x y n => encXYN 0xD#4 x y n
  | .skp x => encXKK 0xE#4 x 0x9E#8
  | .sknp x => encXKK 0xE#4 x 0xA1#8
  | .ldVxDt x => encXKK 0xF#4 x 0x07#8
  | .ldVxK x => encXKK 0xF#4 x 0x0A#8
  | .ldDtVx x => encXKK 0xF#4 x 0x15#8
  | .ldStVx x => encXKK 0xF#4 x 0x18#8
  | .addI x => encXKK 0xF#4 x 0x1E#8
  | .ldF x => encXKK 0xF#4 x 0x29#8
  | .bcd x => encXKK 0xF#4 x 0x33#8
  | .storeRegs x => encXKK 0xF#4 x 0x55#8
  | .loadRegs x => encXKK 0xF#4 x 0x65#8
  | .unhandled w => w

/-- The bytes of an instruction in the order memory holds them (R52). -/
def encodeBytes (i : Instr) : List Byte := [hiByte (encode i), loByte (encode i)]

/-! ### The opcode table's patterns (R75), written digit by digit, apart from `decode` -/

/-- A pattern of the opcode table: its four hex digits, `none` where a letter stands (R75). -/
structure Pattern where
  mnemonic : String
  d0 : Option Nibble
  d1 : Option Nibble
  d2 : Option Nibble
  d3 : Option Nibble
  deriving DecidableEq, Repr

/-- A digit of a pattern allows a nibble: a fixed digit only its own, a letter every one (R75). -/
def digitAllows (d : Option Nibble) (b : Nibble) : Bool :=
  match d with
  | some f => f == b
  | none => true

/-- A pattern matches a word when every fixed digit equals the word's digit in that place (R75). -/
def patternMatches (p : Pattern) (w : Word) : Bool :=
  digitAllows p.d0 (opOf w) && digitAllows p.d1 (xOf w) && digitAllows p.d2 (yOf w) && digitAllows p.d3 (nOf w)

/-- The 34 patterns of spec/opcode_table.json, in its order (the catch-all row is not among them). -/
def opcodePatterns : List Pattern :=
  [ ⟨"CLS", some 0x0#4, some 0x0#4, some 0xE#4, some 0x0#4⟩,
    ⟨"RET", some 0x0#4, some 0x0#4, some 0xE#4, some 0xE#4⟩,
    ⟨"JP_nnn", some 0x1#4, none, none, none⟩,
    ⟨"CALL_nnn", some 0x2#4, none, none, none⟩,
    ⟨"SE_Vx__kk", some 0x3#4, none, none, none⟩,
    ⟨"SNE_Vx__kk", some 0x4#4, none, none, none⟩,
    ⟨"SE_Vx__Vy", some 0x5#4, none, none, some 0x0#4⟩,
    ⟨"LD_Vx__kk", some 0x6#4, none, none, none⟩,
    ⟨"ADD_Vx__kk", some 0x7#4, none, none, none⟩,
    ⟨"LD_Vx__Vy", some 0x8#4, none, none, some 0x0#4⟩,
    ⟨"OR_Vx__Vy", some 0x8#4, none, none, some 0x1#4⟩,
    ⟨"AND_Vx__Vy", some 0x8#4, none, none, some 0x2#4⟩,
    ⟨"XOR_Vx__Vy", some 0x8#4, none, none, some 0x3#4⟩,
    ⟨"ADD_Vx__Vy", some 0x8#4, none, none, some 0x4#4⟩,
    ⟨"SUB_Vx__Vy", some 0x8#4, none, none, some 0x5#4⟩,
    ⟨"SHR_Vx", some 0x8#4, none, none, some 0x6#4⟩,
    ⟨"SUBN_Vx__Vy", some 0x8#4, none, none, some 0x7#4⟩,
    ⟨"SHL_Vx", some 0x8#4, none, none, some 0xE#4⟩,
    ⟨"SNE_Vx__Vy", some 0x9#4, none, none, some 0x0#4⟩,
    ⟨"LD_I__nnn", some 0xA#4, none, none, none⟩,
    ⟨"JP_V0__nnn", some 0xB#4, none, none, none⟩,
    ⟨"RND_Vx__kk", some 0xC#4, none, none, none⟩,
    ⟨"DRW_Vx__Vy__n", some 0xD#4, none, none, none⟩,
    ⟨"SKP_Vx", some 0xE#4, none, some 0x9#4, some 0xE#4⟩,
    ⟨"SKNP_Vx", some 0xE#4, none, some 0xA#4, some 0x1#4⟩,
    ⟨"LD_Vx__DT", some 0xF#4, none, some 0x0#4, some 0x7#4⟩,
    ⟨"LD_Vx__K", some 0xF#4, none, some 0x0#4, some 0xA#4⟩,
    ⟨"LD_DT__Vx", some 0xF#4, none, some 0x1#4, some 0x5#4⟩,
    ⟨"LD_ST__Vx", some 0xF#4, none, some 0x1#4, some 0x8#4⟩,
    ⟨"ADD_I__Vx", some 0xF#4, none, some 0x1#4, some 0xE#4⟩,
    ⟨"LD_F__Vx", some 0xF#4, none, some 0x2#4, some 0x9#4⟩,
    ⟨"BCD_Vx", some 0xF#4, none, some 0x3#4, some 0x3#4⟩,
    ⟨"LD__I___Vx", some 0xF#4, none, some 0x5#4, some 0x5#4⟩,
    ⟨"LD_Vx___I", some 0xF#4, none, some 0x6#4, some 0x5#4⟩ ]

/-- The mnemonics of the patterns that match a word. -/
def matchingMnemonics (w : Word) : List String :=
  (opcodePatterns.filter (fun p => patternMatches p w)).map (fun p => p.mnemonic)

/-- Some pattern of the opcode table matches the word (R75, R77). -/
def recognised (w : Word) : Bool := opcodePatterns.any (fun p => patternMatches p w)

end Sys2Proof
end

