-- ==== Sys2Proof/Config.lean ====
section
/-! DEFINITION. What an implementation fixes: the parameters of spec/00_scope.md R9, and the free value RNG. -/

namespace Sys2Proof.Config

/-- `MEM_SIZE`: addresses 0x000..0xFFF exist (R9, R34). -/
abbrev memSize : Nat := 0x1000

/-- `ROM_BASE`, also the reset PC (R9). -/
abbrev romBase : Nat := 0x200

/-- `RNG` (R9, R132): the byte of the `k`-th executed `Cxkk`, counted on through every reset. A FREE VALUE with no body:
the spec gives no generator, seed, period or distribution (decision D12), so nothing constrains it. DESIGN CHOICE (the form),
log entry 2: safe in a claim about one run, unsafe in a claim that compares runs. -/
opaque randomByte : Nat → Byte

end Sys2Proof.Config
end

