-- ==== Sys2Proof/Machine/Font.lean ====
section
/-! DEFINITION. The implementation parameter FONT (spec/00_scope.md R9, spec/10_state.md R41). -/

namespace Sys2Proof.Machine

/-- A font: the 80 bytes of memory 0x000..0x04F after reset, 16 glyphs of 5 bytes (R41). -/
abbrev Font := Vector Byte 80

/-- The default value of FONT (R41's table, one glyph a line). UNVERIFIED: the spec takes the table from general
knowledge and leaves FONT an open parameter (decision D13); unsafe where a claim rests on it, log entry 1. -/
def defaultFont : Font :=
  #v[ 0xF0#8, 0x90#8, 0x90#8, 0x90#8, 0xF0#8,
      0x20#8, 0x60#8, 0x20#8, 0x20#8, 0x70#8,
      0xF0#8, 0x10#8, 0xF0#8, 0x80#8, 0xF0#8,
      0xF0#8, 0x10#8, 0xF0#8, 0x10#8, 0xF0#8,
      0x90#8, 0x90#8, 0xF0#8, 0x10#8, 0x10#8,
      0xF0#8, 0x80#8, 0xF0#8, 0x10#8, 0xF0#8,
      0xF0#8, 0x80#8, 0xF0#8, 0x90#8, 0xF0#8,
      0xF0#8, 0x10#8, 0x20#8, 0x40#8, 0x40#8,
      0xF0#8, 0x90#8, 0xF0#8, 0x90#8, 0xF0#8,
      0xF0#8, 0x90#8, 0xF0#8, 0x10#8, 0xF0#8,
      0xF0#8, 0x90#8, 0xF0#8, 0x90#8, 0x90#8,
      0xE0#8, 0x90#8, 0xE0#8, 0x90#8, 0xE0#8,
      0xF0#8, 0x80#8, 0x80#8, 0x80#8, 0xF0#8,
      0xE0#8, 0x90#8, 0x90#8, 0x90#8, 0xE0#8,
      0xF0#8, 0x80#8, 0xF0#8, 0x80#8, 0xF0#8,
      0xF0#8, 0x80#8, 0xF0#8, 0x80#8, 0x80#8 ]

end Sys2Proof.Machine
end

