-- ==== Sys2Proof/Machine/State.lean ====
section
/-! DEFINITION. The architectural state (spec/10_state.md), the halt record, the reasons a step can stop, and reset. -/

namespace Sys2Proof.Machine

/-- The reasons of a halt, the block's one exception (R201). -/
inductive HaltReason where
  /-- Code 1: a call with all 16 slots full. -/
  | stackOverflow
  /-- Code 2: a return with an empty stack. -/
  | stackUnderflow
  /-- Code 3: a memory address above 0xFFF. -/
  | outOfBoundsMemoryAccess
  /-- Code 4: a key index above 0xF. -/
  | keyIndexOutOfRange
  deriving DecidableEq, Repr

/-- A halt record (R38, R201): the reason, the address of the instruction or of the failed fetch, and the fields the
reason fills (`none` where it fills none). `addr` is an address in unbounded arithmetic (R55; log entry 10). -/
structure HaltRecord where
  reason : HaltReason
  pc     : Word
  word   : Option Word
  addr   : Option Nat
  key    : Option Byte
  deriving DecidableEq, Repr

/-- Memory (R34): `cells` lists, by strictly rising address, the bytes that differ from what an unlisted address reads as
(`Memory.unlisted`: the reset contents). `font` is the parameter FONT of R9 and R41, which no operation writes (log
entry 1). -/
structure Memory where
  font  : Font
  cells : List Host.Cell
  deriving DecidableEq, Repr

/-- The architectural state, "exactly the following" of R20, and one counter of the model's own. -/
structure State where
  /-- `V[0]`..`V[15]`, R21; `V[15]` is VF, R22. -/
  v     : Vector Byte 16
  /-- The index register I, R24. -/
  i     : Word
  /-- The program counter, R26. -/
  pc    : Word
  /-- The stack pointer, legal values 0..16, R30. -/
  sp    : Byte
  /-- `S[0]`..`S[15]`, R31. -/
  stack : Vector Word 16
  /-- The delay timer, R32. -/
  dt    : Byte
  /-- The sound timer, R33. -/
  st    : Byte
  /-- `M[0x000]`..`M[0xFFF]`, R34. -/
  mem   : Memory
  /-- The framebuffer, row `py` then column `px`, R35. -/
  fb    : Vector (Vector Bool 64) 32
  /-- DIRTY, the repaint flag, R36. -/
  dirty : Bool
  /-- `K[0]`..`K[15]`: the key is held, R37. -/
  keys  : Vector Bool 16
  /-- HALT, R38. -/
  halt  : Option HaltRecord
  /-- The model's own: how many `Cxkk` have been executed, the argument of the free value `Config.randomByte` (R132;
  log entry 2). A later reset does not put it back (`State.resetTo`), so no draw is known to repeat one before it. -/
  draws : Nat
  deriving DecidableEq, Repr

/-- The reasons the machine stops where the spec gives no effect. The spec's own exceptions are no faults: they are halts,
next states with HALT written (R14, R204; log entry 3). -/
inductive Fault where
  /-- Raised by `execCall` and `execRet` in a state with SP above 16, which no run reaches (R30 "SP never leaves 0..16") and
  for which the stack has no slot. Safe: the model stops (log entry 4). -/
  | stackPointerOutOfRange
  deriving DecidableEq, Repr

/-- What the model refuses. -/
inductive Refusal where
  /-- Raised by an arm of `exec` that has no meaning yet; no arm raises it now. Safe: the model stops. -/
  | notModelled (mnemonic : String)
  /-- Raised by `hostOp` for every operation but reset before the first reset (R44, R230). Safe: the model stops. -/
  | beforeReset
  /-- Raised by `hostOp` for key_down and key_up of a key outside 0..15 (R222, R223, R230). Safe: the model stops. -/
  | keyOutsideInterface (n : Nat)
  deriving DecidableEq, Repr

/-- The state that reset leaves, for a given FONT (R42, R240): the font below 0x050 and 0 above it, PC 0x200, DIRTY set,
everything else 0 or none. `draws` is the model's own, and its value 0 here is that of the FIRST reset alone: whether draws
repeat after a later reset is open in the spec (R9, R132, D12), and the model lets nothing say so, since a later reset keeps
the count (`State.resetTo`). DESIGN CHOICE, log entry 2: unsafe in a claim that compares two runs from here. -/
def State.resetWith (font : Font) : State where
  v     := Vector.replicate 16 0x00#8
  i     := 0x0000#16
  pc    := 0x0200#16
  sp    := 0x00#8
  stack := Vector.replicate 16 0x0000#16
  dt    := 0x00#8
  st    := 0x00#8
  mem   := { font := font, cells := [] }
  fb    := Vector.replicate 32 (Vector.replicate 64 false)
  dirty := true
  keys  := Vector.replicate 16 false
  halt  := none
  draws := 0

/-- The state right after reset, with the default FONT of R41 (log entry 1). -/
def State.reset : State := State.resetWith defaultFont

end Sys2Proof.Machine
end

