-- ==== Sys2Proof/Machine/Ops.lean ====
section
/-! DEFINITION. The named operations over memory, registers, stack, framebuffer and keypad; taking a halt; fetching. -/

namespace Sys2Proof.Machine

/-- The outcome of a step or a meaning. -/
abbrev Result := Host.Outcome State Fault Refusal

/-! ### Memory (spec/20_memory.md) -/

/-- What an address that memory does not list reads as: the reset contents, FONT below 0x050 and 0 above (R42, R60). -/
def Memory.unlisted (m : Memory) (a : Nat) : Byte := (m.font[a]?).getD 0x00#8

/-- The byte `M[a]`, for an address that exists (R55); `rangeExists` is checked before it. -/
def Memory.read (m : Memory) (a : Nat) : Byte := (m.cells.lookup a).getD (m.unlisted a)

/-- `cells` with no entry at `a`. -/
def eraseCell (a : Nat) (cells : List Host.Cell) : List Host.Cell := cells.filter (fun c => c.1 != a)

/-- `cells`, rising by address, with the one entry `(a, b)` at `a`. -/
def putCell (a : Nat) (b : Byte) : List Host.Cell → List Host.Cell
  | [] => [(a, b)]
  | c :: cs => if a < c.1 then (a, b) :: c :: cs else if c.1 = a then (a, b) :: cs else c :: putCell a b cs

/-- `M[a] <- b` (R56), in canonical form: writing what an unlisted address reads as removes the entry. An address above
0xFFF does not exist and nothing is written there; only `State.loadRom` presents one (R242). -/
def Memory.write (m : Memory) (a : Nat) (b : Byte) : Memory :=
  if a < Config.memSize then
    { m with cells := if b = m.unlisted a then eraseCell a m.cells else putCell a b m.cells }
  else m

/-- Bytes written one by one from `a` upward. -/
def Memory.writeBytes (m : Memory) (a : Nat) : List Byte → Memory
  | [] => m
  | b :: bs => (m.write a b).writeBytes (a + 1) bs

/-- The canonical form: addresses strictly rising and within memory, no entry equal to what an unlisted address reads as. -/
def Memory.wf (m : Memory) : Bool :=
  decide (m.cells.Pairwise (fun c d => c.1 < d.1)) &&
    m.cells.all (fun c => decide (c.1 < Config.memSize) && (c.2 != m.unlisted c.1))

/-- Every address of the range `base .. base + len - 1` exists (R57); an empty range has none to check (R162, n = 0).
Addresses are computed without wrap (R55). -/
def rangeExists (base len : Nat) : Bool := len == 0 || decide (base + len ≤ Config.memSize)

/-! ### Registers and PC -/

/-- `V[x]` (R21). -/
def State.reg (s : State) (x : RegNum) : Byte := s.v[x.toNat]'(x.isLt)

/-- `V[x] <- b` (R21). -/
def State.setReg (s : State) (x : RegNum) (b : Byte) : State := { s with v := s.v.set x.toNat b x.isLt }

/-- The fetch advance, PC <- a + 2 (R92). -/
def State.advance (s : State) : State := { s with pc := s.pc + 2 }

/-- PC <- target. -/
def State.jumpTo (s : State) (target : Word) : State := { s with pc := target }

/-- A skip: PC <- PC + 2 on top of the fetch advance, when the condition holds (R100). -/
def State.skipIf (s : State) (c : Bool) : State := { s with pc := if c then s.pc + 2 else s.pc }

/-- I <- v (R24). -/
def State.setI (s : State) (v : Word) : State := { s with i := v }

/-- DT <- v (R32). -/
def State.setDt (s : State) (v : Byte) : State := { s with dt := v }

/-- ST <- v (R33). -/
def State.setSt (s : State) (v : Byte) : State := { s with st := v }

/-- One more `Cxkk` has drawn its byte (the model's own counter, log entry 2). -/
def State.countDraw (s : State) : State := { s with draws := s.draws + 1 }

/-- Bytes written to memory one by one from `a` upward. -/
def State.storeBytes (s : State) (a : Nat) (bs : List Byte) : State := { s with mem := s.mem.writeBytes a bs }

/-- HALT <- h (R38). -/
def State.setHalt (s : State) (h : Option HaltRecord) : State := { s with halt := h }

/-! ### Stack (R30, R31) -/

/-- S[SP] <- w; SP <- SP + 1. None where the stack has no slot SP. -/
def State.push (s : State) (w : Word) : Option State :=
  if h : s.sp.toNat < 16 then some { s with stack := s.stack.set s.sp.toNat w h, sp := s.sp + 1 } else none

/-- SP <- SP - 1; PC <- S[SP]; the slot keeps its value (R31). For SP > 0; none where the stack has no such slot. -/
def State.popPc (s : State) : Option State :=
  if h : s.sp.toNat - 1 < 16 then some { s with sp := s.sp - 1, pc := s.stack[s.sp.toNat - 1]'h } else none

/-! ### Framebuffer (R160) -/

/-- `FB[py][px]`. -/
def State.pixel (s : State) (px : Fin 64) (py : Fin 32) : Bool := s.fb[py][px]

/-- `FB[py][px] <- b`. -/
def State.setPixel (s : State) (px : Fin 64) (py : Fin 32) (b : Bool) : State :=
  { s with fb := s.fb.set py (s.fb[py].set px b) }

/-- Every cell to 0. -/
def State.clearFb (s : State) : State := { s with fb := Vector.replicate 32 (Vector.replicate 64 false) }

/-- DIRTY <- 1 (R36). -/
def State.markDirty (s : State) : State := { s with dirty := true }

/-! ### Keypad (R180) -/

/-- `K[k]`. -/
def State.keyHeld (s : State) (k : Nibble) : Bool := s.keys[k.toNat]'(k.isLt)

/-- The key of the scan of R183: ascending, each held key replacing the one before. -/
def State.scanKeys (s : State) : Option Nibble :=
  (List.range 16).foldl
    (fun found k => if s.keyHeld (BitVec.ofNat 4 k) then some (BitVec.ofNat 4 k) else found) none

/-! ### Transfers of several registers (R145, R146) -/

/-- The bytes V0, V1, …, `count` of them. -/
def State.regBytes (s : State) (count : Nat) : List Byte :=
  (List.range count).map (fun k => s.reg (BitVec.ofNat 4 k))

/-- V[k] <- M[base + k] for k = 0, 1, …, `count` of them, in that order. -/
def State.loadRegBytes (s : State) (base : Nat) : Nat → State
  | 0 => s
  | k + 1 => (s.loadRegBytes base k).setReg (BitVec.ofNat 4 k) (s.mem.read (base + k))

/-! ### Taking a halt, the block's one exception -/

/-- `raise Halt` (R14, R94, R204): from the state BEFORE the step, HALT is written and nothing else; control goes to no
address. PC keeps the address of the instruction. Every halt of the model is taken here. -/
def raiseHalt (s : State) (r : HaltRecord) : Result := .next (s.setHalt (some r))

/-- The way back from a halt: only reset, which clears HALT with all other state of R20 and never depends on what that
state was (R205, R240, R241). `font` is the parameter FONT. The model's own count `draws` goes on: the spec gives RNG no
seed or period that a reset would restart (R132, D12), so a draw after a reset is a fresh free value. DESIGN CHOICE, safe,
log entry 2. -/
def State.resetTo (s : State) (font : Font) : State := { State.resetWith font with draws := s.draws }

/-- The code of a halt reason (R201's table; the numbers are the spec's decision D7). -/
def HaltReason.code (r : HaltReason) : Nat :=
  match r with
  | .stackOverflow => 1
  | .stackUnderflow => 2
  | .outOfBoundsMemoryAccess => 3
  | .keyIndexOutOfRange => 4

/-- The record of a memory access from `base` upward that leaves memory: `addr` is the lowest address of the range that
does not exist, max(base, 0x1000) (R57, R201). -/
def outOfBoundsRecord (pc : Word) (word : Option Word) (base : Nat) : HaltRecord :=
  { reason := .outOfBoundsMemoryAccess, pc := pc, word := word, addr := some (max base Config.memSize), key := none }

/-- The record of a call with a full stack (R103, R201). -/
def overflowRecord (pc word : Word) : HaltRecord :=
  { reason := .stackOverflow, pc := pc, word := some word, addr := none, key := none }

/-- The record of a return with an empty stack (R101, R201). -/
def underflowRecord (pc word : Word) : HaltRecord :=
  { reason := .stackUnderflow, pc := pc, word := some word, addr := none, key := none }

/-- The record of a key index above 0xF (R181, R182, R201). -/
def keyRecord (pc word : Word) (key : Byte) : HaltRecord :=
  { reason := .keyIndexOutOfRange, pc := pc, word := some word, addr := none, key := some key }

/-- An instruction that accesses `base .. base + len - 1`: the whole range is checked before anything is written; where it
leaves memory the step halts, else the instruction's state `t` is committed (R57, R16). `s` is the state before the step. -/
def commitIfInRange (s : State) (word : Word) (base len : Nat) (t : State) : Result :=
  if rangeExists base len then .next t else raiseHalt s (outOfBoundsRecord s.pc (some word) base)

/-! ### Fetching (R52, R91, R92) -/

/-- The word at PC, big-endian; none where PC or PC + 1 does not exist. -/
def State.fetch (s : State) : Option Word :=
  if rangeExists s.pc.toNat 2 then some (wordOfBytes (s.mem.read s.pc.toNat) (s.mem.read (s.pc.toNat + 1))) else none

/-- The word `w` stored where the next step fetches, and HALT cleared, without which no step fetches (R90; log entry 8).
Where PC or PC + 1 does not exist there is no such place, and nothing changes. -/
def State.placeWord (s : State) (w : Word) : State :=
  if rangeExists s.pc.toNat 2 then (s.storeBytes s.pc.toNat [hiByte w, loByte w]).setHalt none else s

end Sys2Proof.Machine
end

