-- ==== Sys2Proof/Machine/Flags.lean ====
section
/-! DEFINITION. The flag computations. The only flag is VF, an ordinary register (spec/10_state.md R22, R39). -/

namespace Sys2Proof.Machine

/-- A flag as the byte VF holds: 1 or 0 (R39). -/
def flagByte (c : Bool) : Byte := if c then 0x01#8 else 0x00#8

/-- V[0xF] <- flag. -/
def State.setFlag (s : State) (c : Bool) : State := s.setReg VF (flagByte c)

/-- The carry of an 8-bit sum: sum > 255, on unbounded integers (R127). -/
def carryOut (a b : Byte) : Bool := decide (a.toNat + b.toNat > 255)

/-- Minuend strictly greater than subtrahend (R128, R130). -/
def greaterThan (a b : Byte) : Bool := decide (a.toNat > b.toNat)

/-- The bit a right shift by one moves out: bit 0 (R129). -/
def shiftedOutRight (a : Byte) : Bool := a.getLsbD 0

/-- The bit a left shift by one moves out: bit 7 (R131). -/
def shiftedOutLeft (a : Byte) : Bool := a.getLsbD 7

/-- The flag of `Fx1E`: the new I is above 0x0F00 (R142). -/
def aboveThreshold (i : Word) : Bool := decide (i.toNat > 0x0F00)

/-- VF accumulates a collision: VF <- VF OR (bit AND old) (R162). -/
def State.orFlag (s : State) (c : Bool) : State := s.setReg VF (s.reg VF ||| flagByte c)

end Sys2Proof.Machine
end

