-- ==== Sys2Proof/Machine/Operands.lean ====
section
/-! DEFINITION. The operand forms (spec/30_encoding.md R72) and the values instructions compute from them. -/

namespace Sys2Proof.Machine

/-- `zext_16(nnn)`, the address written to PC or I (R72). -/
def addressOf (nnn : Addr12) : Word := nnn.setWidth 16

/-- The target of `Bnnn`: nnn + V0, not reduced (R108). -/
def offsetTarget (nnn : Addr12) (v0 : Byte) : Word := nnn.setWidth 16 + v0.setWidth 16

/-- The effective base of a memory access: I, in unbounded arithmetic (R140, R55). -/
def State.base (s : State) : Nat := s.i.toNat

/-- The first address of the glyph of a digit: Vx * 5, the whole byte (R143). -/
def glyphAddress (b : Byte) : Word := b.setWidth 16 * 5#16

/-- The decimal digits of a byte: hundreds, tens, ones (R144). -/
def decimalDigits (b : Byte) : List Byte := [b / 100#8, b / 10#8 % 10#8, b % 10#8]

/-- The key a byte names, where there is one (R181). -/
def keyOf (b : Byte) : Option Nibble := if b.toNat ≤ 0xF then some (b.setWidth 4) else none

/-- The screen column of sprite column `c`: (Vx + c) mod 64 (R162). -/
def columnOf (vx : Byte) (c : Nat) : Fin 64 := Fin.ofNat 64 (vx.toNat + c)

/-- The screen row of sprite row `r`: (Vy + r) mod 32 (R162). -/
def rowOf (vy : Byte) (r : Nat) : Fin 32 := Fin.ofNat 32 (vy.toNat + r)

/-- The sprite bit of column `c`, most significant first: b[7 - c] (R162). -/
def spriteBit (b : Byte) (c : Nat) : Bool := b.getLsbD (7 - c)

end Sys2Proof.Machine
end

