-- ==== Sys2Proof/Machine/Alu.lean ====
section
/-! DEFINITION. Register loads and the ALU (spec/42_alu.md). Statements run in order and every register reference reads
the live value (R15, decision D4; log entry 5): the intermediate states `s1`, `s2` are the points of that order. -/

namespace Sys2Proof.Machine

/-- LD Vx, kk, R121. -/
def execLdImm (x : RegNum) (kk : Byte) (s : State) : Result := .next (s.advance.setReg x kk)

/-- ADD Vx, kk, R122: no flag. -/
def execAddImm (x : RegNum) (kk : Byte) (s : State) : Result := .next (s.advance.setReg x (s.reg x + kk))

/-- LD Vx, Vy, R123. -/
def execLdReg (x y : RegNum) (s : State) : Result := .next (s.advance.setReg x (s.reg y))

/-- OR Vx, Vy, R124: no flag. -/
def execOrReg (x y : RegNum) (s : State) : Result := .next (s.advance.setReg x (s.reg x ||| s.reg y))

/-- AND Vx, Vy, R125: no flag. -/
def execAndReg (x y : RegNum) (s : State) : Result := .next (s.advance.setReg x (s.reg x &&& s.reg y))

/-- XOR Vx, Vy, R126: no flag. -/
def execXorReg (x y : RegNum) (s : State) : Result := .next (s.advance.setReg x (s.reg x ^^^ s.reg y))

/-- ADD Vx, Vy, R127: both operands first, then Vx, the flag last. -/
def execAddReg (x y : RegNum) (s : State) : Result :=
  let s1 := s.advance.setReg x (s.reg x + s.reg y)
  .next (s1.setFlag (carryOut (s.reg x) (s.reg y)))

/-- SUB Vx, Vy, R128: the flag first, then the live difference. -/
def execSubReg (x y : RegNum) (s : State) : Result :=
  let s1 := s.advance.setFlag (greaterThan (s.reg x) (s.reg y))
  .next (s1.setReg x (s1.reg x - s1.reg y))

/-- SHR Vx, R129: the flag first, then the live Vx; Vy is ignored. -/
def execShr (x _y : RegNum) (s : State) : Result :=
  let s1 := s.advance.setFlag (shiftedOutRight (s.reg x))
  .next (s1.setReg x (s1.reg x >>> 1))

/-- SUBN Vx, Vy, R130: the flag first, then the live difference. -/
def execSubnReg (x y : RegNum) (s : State) : Result :=
  let s1 := s.advance.setFlag (greaterThan (s.reg y) (s.reg x))
  .next (s1.setReg x (s1.reg y - s1.reg x))

/-- SHL Vx, R131: the flag first, then the live Vx; Vy is ignored. -/
def execShl (x _y : RegNum) (s : State) : Result :=
  let s1 := s.advance.setFlag (shiftedOutLeft (s.reg x))
  .next (s1.setReg x (s1.reg x <<< 1))

/-- RND Vx, kk, R132, for a given draw `r`. -/
def rndWith (r : Byte) (x : RegNum) (kk : Byte) (s : State) : State :=
  (s.advance.setReg x (r &&& kk)).countDraw

/-- RND Vx, kk, R132: a fresh free byte per execution (log entry 2). -/
def execRnd (x : RegNum) (kk : Byte) (s : State) : Result := .next (rndWith (Config.randomByte s.draws) x kk s)

end Sys2Proof.Machine
end

