-- ==== Sys2Proof/Machine/Display.lean ====
section
/-! DEFINITION. The framebuffer instructions and the sprite blitter (spec/44_display.md). -/

namespace Sys2Proof.Machine

/-- CLS, R161. -/
def execCls (s : State) : Result := .next s.advance.clearFb.markDirty

/-- One sprite pixel, the body of R162's inner loop: row `r`, column `c` of the sprite, `b` the row's byte. The coordinates
read the live registers (decision D4; log entry 5). -/
def drawPixel (x y : RegNum) (b : Byte) (r : Nat) (s : State) (c : Nat) : State :=
  let bit := spriteBit b c
  let px := columnOf (s.reg x) c
  let py := rowOf (s.reg y) r
  let old := s.pixel px py
  (s.orFlag (bit && old)).setPixel px py (xor old bit)

/-- One sprite row, most significant bit first: row `r` is the byte at I + r (R162). -/
def drawRow (x y : RegNum) (s : State) (r : Nat) : State :=
  (List.range 8).foldl (drawPixel x y (s.mem.read (s.base + r)) r) s

/-- The rows of a sprite, top to bottom (R162). -/
def drawSprite (x y : RegNum) (n : Nat) (s : State) : State := (List.range n).foldl (drawRow x y) s

/-- DRW Vx, Vy, n, R162. -/
def execDrw (x y : RegNum) (n : Nibble) (s : State) : Result :=
  commitIfInRange s (encode (.drw x y n)) s.base n.toNat
    (drawSprite x y n.toNat (s.advance.setReg VF 0x00#8)).markDirty

end Sys2Proof.Machine
end

