-- ==== Sys2Proof/Machine/Flow.lean ====
section
/-! DEFINITION. Control transfer, skips and the catch-all (spec/41_flow.md, spec/40_step.md R95). Every meaning takes the
state BEFORE the step, with PC = a, and makes the fetch advance itself (R92; log entry 6). -/

namespace Sys2Proof.Machine

/-- RET, R101. -/
def execRet (s : State) : Result :=
  if s.sp = 0x00#8 then raiseHalt s (underflowRecord s.pc (encode .ret))
  else match s.advance.popPc with
    | some t => .next t
    | none => .fault .stackPointerOutOfRange

/-- JP nnn, R102. -/
def execJp (nnn : Addr12) (s : State) : Result := .next (s.advance.jumpTo (addressOf nnn))

/-- CALL nnn, R103: the pushed address is PC after the fetch advance. -/
def execCall (nnn : Addr12) (s : State) : Result :=
  if s.sp = 0x10#8 then raiseHalt s (overflowRecord s.pc (encode (.call nnn)))
  else match s.advance.push s.advance.pc with
    | some t => .next (t.jumpTo (addressOf nnn))
    | none => .fault .stackPointerOutOfRange

/-- SE Vx, kk, R104. -/
def execSeImm (x : RegNum) (kk : Byte) (s : State) : Result := .next (s.advance.skipIf (s.reg x == kk))

/-- SNE Vx, kk, R105. -/
def execSneImm (x : RegNum) (kk : Byte) (s : State) : Result := .next (s.advance.skipIf (s.reg x != kk))

/-- SE Vx, Vy, R106. -/
def execSeReg (x y : RegNum) (s : State) : Result := .next (s.advance.skipIf (s.reg x == s.reg y))

/-- SNE Vx, Vy, R107. -/
def execSneReg (x y : RegNum) (s : State) : Result := .next (s.advance.skipIf (s.reg x != s.reg y))

/-- JP V0, nnn, R108: always V0. -/
def execJpV0 (nnn : Addr12) (s : State) : Result := .next (s.advance.jumpTo (offsetTarget nnn (s.reg 0x0#4)))

/-- The catch-all, R95: nothing beyond the fetch advance. The event `Unhandled(a, w)` is the outcome of the step (R96),
which `stepOutcome` gives. -/
def execUnhandled (_w : Word) (s : State) : Result := .next s.advance

end Sys2Proof.Machine
end

