-- ==== Sys2Proof/Machine/Index.lean ====
section
/-! DEFINITION. The index register and memory transfers (spec/43_index_memory.md). -/

namespace Sys2Proof.Machine

/-- LD I, nnn, R141. -/
def execLdI (nnn : Addr12) (s : State) : Result := .next (s.advance.setI (addressOf nnn))

/-- ADD I, Vx, R142: I wraps at 16 bits; then the flag of the new I. -/
def execAddI (x : RegNum) (s : State) : Result :=
  let s1 := s.advance.setI (s.i + (s.reg x).setWidth 16)
  .next (s1.setFlag (aboveThreshold s1.i))

/-- LD F, Vx, R143. -/
def execLdF (x : RegNum) (s : State) : Result := .next (s.advance.setI (glyphAddress (s.reg x)))

/-- BCD Vx, R144. -/
def execBcd (x : RegNum) (s : State) : Result :=
  commitIfInRange s (encode (.bcd x)) s.base 3
    (s.advance.storeBytes s.base (decimalDigits (s.reg x)))

/-- LD [I], Vx, R145: V0..Vx inclusive; I unchanged. -/
def execStoreRegs (x : RegNum) (s : State) : Result :=
  commitIfInRange s (encode (.storeRegs x)) s.base (x.toNat + 1)
    (s.advance.storeBytes s.base (s.regBytes (x.toNat + 1)))

/-- LD Vx, [I], R146: V0..Vx inclusive; I unchanged. -/
def execLoadRegs (x : RegNum) (s : State) : Result :=
  commitIfInRange s (encode (.loadRegs x)) s.base (x.toNat + 1) (s.advance.loadRegBytes s.base (x.toNat + 1))

end Sys2Proof.Machine
end

