-- ==== Sys2Proof/Machine/Input.lean ====
section
/-! DEFINITION. Keypad and timer instructions (spec/45_keypad_timers.md). -/

namespace Sys2Proof.Machine

/-- SKP Vx, R181. -/
def execSkp (x : RegNum) (s : State) : Result :=
  match keyOf (s.reg x) with
  | some k => .next (s.advance.skipIf (s.keyHeld k))
  | none => raiseHalt s (keyRecord s.pc (encode (.skp x)) (s.reg x))

/-- SKNP Vx, R182. -/
def execSknp (x : RegNum) (s : State) : Result :=
  match keyOf (s.reg x) with
  | some k => .next (s.advance.skipIf (!s.keyHeld k))
  | none => raiseHalt s (keyRecord s.pc (encode (.sknp x)) (s.reg x))

/-- LD Vx, K, R183: PC goes back to a, and forward again only when a key is held. -/
def execLdVxK (x : RegNum) (s : State) : Result :=
  let s1 := s.advance.jumpTo (s.advance.pc - 2)
  match s.scanKeys with
  | some k => .next ((s1.setReg x (k.setWidth 8)).jumpTo (s1.pc + 2))
  | none => .next s1

/-- LD Vx, DT, R184. -/
def execLdVxDt (x : RegNum) (s : State) : Result := .next (s.advance.setReg x s.dt)

/-- LD DT, Vx, R185. -/
def execLdDtVx (x : RegNum) (s : State) : Result := .next (s.advance.setDt (s.reg x))

/-- LD ST, Vx, R186. -/
def execLdStVx (x : RegNum) (s : State) : Result := .next (s.advance.setSt (s.reg x))

end Sys2Proof.Machine
end

