-- ==== Sys2Proof/Machine/Step.lean ====
section
/-! DEFINITION. The step of the core (spec/40_step.md R90-R98). -/

namespace Sys2Proof.Machine

/-- `step()` (R98): a halted core stays as it is (R90); a fetch outside memory halts (R91); else the fetched word's
instruction runs (R92, R93). `exec` starts from the state before the fetch advance and makes it itself (log entry 6). -/
def step (s : State) : Host.Outcome State Fault Refusal :=
  match s.halt with
  | some _ => .next s
  | none =>
    match s.fetch with
    | none => raiseHalt s (outOfBoundsRecord s.pc none s.pc.toNat)
    | some w => exec (decode w) s

/-- `s` with the instruction of bits `w` (those from `nbits` up are 0) stored where `step` fetches next (log entry 8). -/
def State.withFetchWord (s : State) (nbits w : Nat) : State := s.placeWord (BitVec.ofNat 16 (w % 2 ^ nbits))

end Sys2Proof.Machine
end

