-- ==== Sys2Proof/Machine/HostOps.lean ====
section
/-! DEFINITION. The host operations (spec/60_exceptions.md R220, spec/70_reset_and_hazards.md R240-R244) and the outcome of
a step (spec/40_step.md R96). Before the first reset the core has no state (R44): the host layer holds `Option State`. -/

namespace Sys2Proof.Machine

/-- The outcome of `step()` (R96): returned to the host, not stored. -/
inductive StepOutcome where
  /-- An instruction rule ran to completion. -/
  | executed
  /-- The catch-all ran (R95): the word's address and the word. -/
  | unhandled (a w : Word)
  /-- The core is halted (R90 or a halt in this step): the record in HALT. -/
  | halted (r : HaltRecord)
  deriving DecidableEq, Repr

/-- The host operations (R220). -/
inductive HostOp where
  | reset
  | loadRom (bytes : List Byte)
  | keyDown (n : Nat)
  | keyUp (n : Nat)
  | step
  | tickTimers
  | readFramebuffer
  | readDirty
  | clearDirty
  | readSoundTimer
  deriving DecidableEq, Repr

/-- What a host operation returns (R220). -/
inductive Response where
  | none
  | stepped (o : StepOutcome)
  | framebuffer (grid : Vector (Vector Bool 64) 32)
  | dirty (d : Bool)
  | soundTimer (st : Byte)
  deriving DecidableEq, Repr

/-- An instruction is the catch-all's (R95). -/
def isUnhandled (i : Instr) : Bool :=
  match i with
  | .unhandled _ => true
  | .cls | .ret | .jp _ | .call _ | .seImm _ _ | .sneImm _ _ | .seReg _ _ | .ldImm _ _ | .addImm _ _ | .ldReg _ _
  | .orReg _ _ | .andReg _ _ | .xorReg _ _ | .addReg _ _ | .subReg _ _ | .shr _ _ | .subnReg _ _ | .shl _ _
  | .sneReg _ _ | .ldI _ | .jpV0 _ | .rnd _ _ | .drw _ _ _ | .skp _ | .sknp _ | .ldVxDt _ | .ldVxK _ | .ldDtVx _
  | .ldStVx _ | .addI _ | .ldF _ | .bcd _ | .storeRegs _ | .loadRegs _ => false

/-- The outcome of the step that took `s` to `t` (R96): halted when HALT holds a record after it, unhandled when the word
fetched at `s` is the catch-all's, executed otherwise. -/
def stepOutcome (s t : State) : StepOutcome :=
  match t.halt, s.fetch with
  | some r, _ => .halted r
  | none, some w => if isUnhandled (decode w) then .unhandled s.pc w else .executed
  | none, none => .executed

/-- `tick_timers()` (R210): each timer minus one if nonzero. -/
def State.tickTimers (s : State) : State :=
  { s with dt := if s.dt = 0x00#8 then s.dt else s.dt - 1, st := if s.st = 0x00#8 then s.st else s.st - 1 }

/-- `load_rom(bytes)` (R242): copied from 0x200 upward, bytes past 0xFFF dropped; nothing else changes. -/
def State.loadRom (s : State) (bytes : List Byte) : State := s.storeBytes Config.romBase bytes

/-- K[n] <- held (R222, R223). -/
def State.setKey (s : State) (n : Nat) (held : Bool) : State := { s with keys := s.keys.setIfInBounds n held }

/-- `clear_dirty()` (R226). -/
def State.clearDirty (s : State) : State := { s with dirty := false }

/-- The result of a host operation: the state it leaves and what it returns. -/
abbrev HostResult := Host.Outcome (State × Response) Fault Refusal

/-- key_down and key_up: only keys 0..15 are of the interface (R222, R223, R230). -/
def keyOp (s : State) (n : Nat) (held : Bool) : HostResult :=
  if n < 16 then .next (s.setKey n held, .none) else .refused (.keyOutsideInterface n)

/-- `step()` with its outcome (R96, R220). -/
def hostStep (s : State) : HostResult :=
  match step s with
  | .next t => .next (t, .stepped (stepOutcome s t))
  | .fault r => .fault r
  | .refused r => .refused r

/-- A host operation on a core that has been reset (R220). `font` is the parameter FONT that reset loads (R240). -/
def runHostOp (font : Font) (op : HostOp) (s : State) : HostResult :=
  match op with
  | .reset => .next (s.resetTo font, .none)
  | .loadRom bytes => .next (s.loadRom bytes, .none)
  | .keyDown n => keyOp s n true
  | .keyUp n => keyOp s n false
  | .step => hostStep s
  | .tickTimers => .next (s.tickTimers, .none)
  | .readFramebuffer => .next (s, .framebuffer s.fb)
  | .readDirty => .next (s, .dirty s.dirty)
  | .clearDirty => .next (s.clearDirty, .none)
  | .readSoundTimer => .next (s, .soundTimer s.st)

/-- A host operation on the block: `none` is the core before its first reset, which has no state and takes no operation
but reset (R44, R230, R243). The first reset starts the model's count of draws at 0; a later one keeps it (log entry 2). -/
def hostOp (font : Font) (op : HostOp) (p : Option State) : HostResult :=
  match p, op with
  | some s, op => runHostOp font op s
  | none, .reset => .next (State.resetWith font, .none)
  | none, .loadRom _ => .refused .beforeReset
  | none, .keyDown _ => .refused .beforeReset
  | none, .keyUp _ => .refused .beforeReset
  | none, .step => .refused .beforeReset
  | none, .tickTimers => .refused .beforeReset
  | none, .readFramebuffer => .refused .beforeReset
  | none, .readDirty => .refused .beforeReset
  | none, .clearDirty => .refused .beforeReset
  | none, .readSoundTimer => .refused .beforeReset

end Sys2Proof.Machine
end

