-- ==== Sys2Proof/Safety.lean ====
section
/-! DEFINITION. What a claim says of a state and of two states: the parts a step keeps, and the legal states. -/

namespace Sys2Proof.Machine

/-- The parts of the state apart from PC (R20). -/
inductive Component where
  | general | index | stackPointer | stackSlots | delayTimer | soundTimer | memory | framebuffer | dirtyFlag | keypad
  | haltRegister | drawCount
  deriving DecidableEq, Repr

/-- A part is the same in two states; memory is the same when every byte reads the same. -/
def Component.Same (c : Component) (s t : State) : Prop :=
  match c with
  | .general => ∀ r : RegNum, t.reg r = s.reg r
  | .index => t.i = s.i
  | .stackPointer => t.sp = s.sp
  | .stackSlots => ∀ k : Fin 16, t.stack[k] = s.stack[k]
  | .delayTimer => t.dt = s.dt
  | .soundTimer => t.st = s.st
  | .memory => ∀ a : Nat, t.mem.read a = s.mem.read a
  | .framebuffer => ∀ px py, t.pixel px py = s.pixel px py
  | .dirtyFlag => t.dirty = s.dirty
  | .keypad => ∀ k : Nibble, t.keyHeld k = s.keyHeld k
  | .haltRegister => t.halt = s.halt
  | .drawCount => t.draws = s.draws

/-- The frame: from `s` to `t` every part outside `changed` is the same; PC may change. -/
def KeepsAllBut (changed : List Component) (s t : State) : Prop :=
  ∀ c : Component, c ∉ changed → c.Same s t

/-- The state `s` with HALT holding `r` and every other part the same: what a halting step leaves (R14). -/
def State.haltedWith (s : State) (r : HaltRecord) : State := { s with halt := some r }

/-- Every general register but `x` is the same. -/
def KeepsRegsBut (x : RegNum) (s t : State) : Prop := ∀ r : RegNum, r ≠ x → t.reg r = s.reg r

/-- Where each instruction leaves PC when it does not halt, in the words of R27: `s.pc` is the instruction's address a. -/
def pcAfter (i : Instr) (s : State) : Word :=
  match i with
  | .jp nnn => BitVec.ofNat 16 nnn.toNat
  | .call nnn => BitVec.ofNat 16 nnn.toNat
  | .jpV0 nnn => BitVec.ofNat 16 (nnn.toNat + (s.reg 0x0#4).toNat)
  | .ret => (s.stack[s.sp.toNat - 1]?).getD 0x0000#16
  | .seImm x kk => if s.reg x = kk then s.pc + 4 else s.pc + 2
  | .sneImm x kk => if s.reg x = kk then s.pc + 2 else s.pc + 4
  | .seReg x y => if s.reg x = s.reg y then s.pc + 4 else s.pc + 2
  | .sneReg x y => if s.reg x = s.reg y then s.pc + 2 else s.pc + 4
  | .skp x => if s.keyHeld (BitVec.ofNat 4 (s.reg x).toNat) then s.pc + 4 else s.pc + 2
  | .sknp x => if s.keyHeld (BitVec.ofNat 4 (s.reg x).toNat) then s.pc + 2 else s.pc + 4
  | .ldVxK _ => if ∃ k : Nibble, s.keyHeld k = true then s.pc + 2 else s.pc
  | .cls | .ldImm _ _ | .addImm _ _ | .ldReg _ _ | .orReg _ _ | .andReg _ _ | .xorReg _ _ | .addReg _ _
  | .subReg _ _ | .shr _ _ | .subnReg _ _ | .shl _ _ | .ldI _ | .rnd _ _ | .drw _ _ _ | .ldVxDt _ | .ldDtVx _
  | .ldStVx _ | .addI _ | .ldF _ | .bcd _ | .storeRegs _ | .loadRegs _ | .unhandled _ => s.pc + 2

/-- The sprite of `Dxyn` at a state with Vx and Vy fixed has a bit 1 over the screen pixel (px, py) (R162, R163). -/
def SpriteCovers (s : State) (x y : RegNum) (n : Nat) (px : Fin 64) (py : Fin 32) : Prop :=
  ∃ r c : Nat, r < n ∧ c < 8 ∧ px.val = ((s.reg x).toNat + c) % 64 ∧ py.val = ((s.reg y).toNat + r) % 32 ∧
    (s.mem.read (s.i.toNat + r)).getLsbD (7 - c) = true

/-- The first `k` of the 8 * n pixel writes of `Dxyn`, in the order of R162's loops, as the pair of VF and the screen:
write k is row k / 8, column k % 8, and a coordinate register that is VF reads the VF of that moment (R15). -/
def drawTrace (s : State) (x y : RegNum) : Nat → Byte × (Fin 64 → Fin 32 → Bool)
  | 0 => (0x00#8, s.pixel)
  | k + 1 =>
    let vf := (drawTrace s x y k).1
    let screen := (drawTrace s x y k).2
    let vx := if x = VF then vf else s.reg x
    let vy := if y = VF then vf else s.reg y
    let bit := (s.mem.read (s.i.toNat + k / 8)).getLsbD (7 - k % 8)
    let px := Fin.ofNat 64 (vx.toNat + k % 8)
    let py := Fin.ofNat 32 (vy.toNat + k / 8)
    (if bit && screen px py then vf ||| 0x01#8 else vf,
      fun qx qy => if qx = px ∧ qy = py then xor (screen px py) bit else screen qx qy)

/-- A halt record fills the fields its reason fills, and no others, with values that the reason allows (R201). -/
def HaltRecord.Legal (r : HaltRecord) : Prop :=
  match r.reason with
  | .stackOverflow => r.word.isSome ∧ r.addr = none ∧ r.key = none
  | .stackUnderflow => r.word.isSome ∧ r.addr = none ∧ r.key = none
  | .outOfBoundsMemoryAccess => (∃ a, r.addr = some a ∧ 0x1000 ≤ a) ∧ r.key = none
  | .keyIndexOutOfRange => r.word.isSome ∧ r.addr = none ∧ ∃ k : Byte, r.key = some k ∧ 0xF < k.toNat

/-- The legal states: what holds after reset and is kept by every step and every host operation. -/
structure State.Inv (s : State) : Prop where
  /-- SP never leaves 0..16 (R30). -/
  spRange : s.sp.toNat ≤ 16
  /-- Stack slots hold post-fetch values (R29). -/
  slotRange : ∀ k : Fin 16, s.stack[k].toNat ≤ 0x1000
  /-- The largest value an instruction can place in PC (R29). -/
  pcRange : s.pc.toNat ≤ 0x10FE
  /-- Memory is in its canonical form. -/
  memWf : s.mem.wf = true
  /-- A halt record is legal and names the instruction PC stands at (R94, R201). -/
  haltLegal : ∀ r, s.halt = some r → r.Legal ∧ r.pc = s.pc
  /-- A stack halt holds the stack pointer that raised it (R101, R103). -/
  haltStack : ∀ r, s.halt = some r →
    (r.reason = .stackOverflow → s.sp = 0x10#8) ∧ (r.reason = .stackUnderflow → s.sp = 0x00#8)

end Sys2Proof.Machine
end

