-- ==== Sys2Proof/WellFormed.lean ====
section
/-! DEFINITION. Which terms of `Instr` are instructions of the core. The field types of `Instr` hold every other
condition of R71 and R72 (a 4-bit register number, an 8-bit `kk`, a 12-bit `nnn`, a 4-bit `n`). -/

namespace Sys2Proof

/-- An instruction term is well formed. The one check: `unhandled w` stands only for a word that no pattern of the
opcode table matches (R75, R77); the field types leave nothing else to check. -/
def Instr.wellFormed : Instr → Bool
  | .cls => true
  | .ret => true
  | .jp _ => true
  | .call _ => true
  | .seImm _ _ => true
  | .sneImm _ _ => true
  | .seReg _ _ => true
  | .ldImm _ _ => true
  | .addImm _ _ => true
  | .ldReg _ _ => true
  | .orReg _ _ => true
  | .andReg _ _ => true
  | .xorReg _ _ => true
  | .addReg _ _ => true
  | .subReg _ _ => true
  | .shr _ _ => true
  | .subnReg _ _ => true
  | .shl _ _ => true
  | .sneReg _ _ => true
  | .ldI _ => true
  | .jpV0 _ => true
  | .rnd _ _ => true
  | .drw _ _ _ => true
  | .skp _ => true
  | .sknp _ => true
  | .ldVxDt _ => true
  | .ldVxK _ => true
  | .ldDtVx _ => true
  | .ldStVx _ => true
  | .addI _ => true
  | .ldF _ => true
  | .bcd _ => true
  | .storeRegs _ => true
  | .loadRegs _ => true
  | .unhandled w => !recognised w

end Sys2Proof
end

