-- ==== Sys2Proof/Certificates/Slice0/Obligations.lean ====
section
/-! DEFINITION. The statements for the provers. In every instruction statement `s` is the state before the step, with PC at
the instruction's address a; `KeepsAllBut` is the frame; an existential next state says that the instruction completes.
"The spec's decision D<n>" names a point that spec/92_eei_decisions.md decides and not the source. -/

open Sys2Proof Sys2Proof.Machine

/-! ### Encoding -/

/-- Words written out from the encoding lines of the spec's rules decode to the instruction they stand for. -/
def Obligations.HandWrittenWordsDecode : Prop :=
  decode 0x00E0#16 = .cls ∧ decode 0x00EE#16 = .ret ∧ decode 0x2210#16 = .call 0x210#12 ∧
  decode 0x6A42#16 = .ldImm 0xA#4 0x42#8 ∧ decode 0x812E#16 = .shl 0x1#4 0x2#4 ∧
  decode 0xBFFF#16 = .jpV0 0xFFF#12 ∧ decode 0xD012#16 = .drw 0x0#4 0x1#4 0x2#4 ∧
  decode 0xE19E#16 = .skp 0x1#4 ∧ decode 0xF265#16 = .loadRegs 0x2#4 ∧ decode 0x0123#16 = .unhandled 0x0123#16

/-- Decoding the word of a well-formed instruction gives the instruction back, every operand at every value. -/
def Obligations.DecodeOfEncodeIsTheInstruction : Prop :=
  ∀ i : Instr, i.wellFormed = true → decode (encode i) = i

/-- Encoding what a word decodes to gives the word back: no bit of a word is dropped. -/
def Obligations.EncodeOfDecodeIsTheWord : Prop := ∀ w : Word, encode (decode w) = w

/-- Every word decodes to a well-formed instruction. -/
def Obligations.EveryWordDecodesWellFormed : Prop := ∀ w : Word, (decode w).wellFormed = true

/-- The decoder and the opcode table's digit patterns agree: a word matches the pattern of the instruction it decodes to
and no other, and a catch-all word matches none (strict digits are the spec's decision D2). -/
def Obligations.WordMatchesItsOwnPatternOnly : Prop :=
  ∀ w : Word, matchingMnemonics w = if isUnhandled (decode w) then [] else [(decode w).mnemonic]

/-- Which words are unhandled, group by group: groups 1-4, 6, 7 and A-D hold none. -/
def Obligations.UnhandledWordsByGroup : Prop :=
  ∀ w : Word, isUnhandled (decode w) = true ↔
    (opOf w = 0x0#4 ∧ w ≠ 0x00E0#16 ∧ w ≠ 0x00EE#16) ∨
    (opOf w = 0x5#4 ∧ nOf w ≠ 0x0#4) ∨
    (opOf w = 0x8#4 ∧ nOf w ∈ [0x8#4, 0x9#4, 0xA#4, 0xB#4, 0xC#4, 0xD#4, 0xF#4]) ∨
    (opOf w = 0x9#4 ∧ nOf w ≠ 0x0#4) ∨
    (opOf w = 0xE#4 ∧ kkOf w ∉ [0x9E#8, 0xA1#8]) ∨
    (opOf w = 0xF#4 ∧ kkOf w ∉ [0x07#8, 0x0A#8, 0x15#8, 0x18#8, 0x1E#8, 0x29#8, 0x33#8, 0x55#8, 0x65#8])

/-- R70: every instruction is two bytes, the first the more significant; the decoder takes exactly two and never looks
further, and fewer than two are refused. -/
def Obligations.InstructionsAreTwoBigEndianBytes : Prop :=
  (∀ i : Instr, (encodeBytes i).length = 2) ∧
  (∀ (hi lo : Byte) (rest : List Byte) (w : Word), w.toNat = hi.toNat * 256 + lo.toNat →
    decodeBytes (hi :: lo :: rest) = .ok (decode w, rest)) ∧
  (∀ (w : Word) (rest : List Byte), decodeBytes (encodeBytes (decode w) ++ rest) = .ok (decode w, rest)) ∧
  (∀ bs : List Byte, bs.length < 2 → decodeBytes bs = .error .truncated)

/-! ### The step -/

/-- On a core that is not halted, with PC and PC + 1 in memory, a step runs the instruction that the big-endian word
at PC decodes to, and adds nothing around it: `exec` makes the fetch advance itself, where R98 has the step make it (the
model's form, log entry 6). -/
def Obligations.StepRunsTheDecodedWord : Prop :=
  ∀ (s : State) (w : Word), s.halt = none → s.pc.toNat ≤ 0xFFE →
    w.toNat = (s.mem.read s.pc.toNat).toNat * 256 + (s.mem.read (s.pc.toNat + 1)).toNat →
    step s = exec (decode w) s

/-- The model's choice, log entry 8: a word placed by `withFetchWord` is what the next step runs; only HALT and the two
bytes at PC change. -/
def Obligations.PlacedWordIsRunNext : Prop :=
  ∀ (s : State) (w : Word), s.pc.toNat ≤ 0xFFE →
    step (s.withFetchWord 16 w.toNat) = exec (decode w) (s.withFetchWord 16 w.toNat) ∧
    KeepsAllBut [.memory, .haltRegister] s (s.withFetchWord 16 w.toNat) ∧
    (s.withFetchWord 16 w.toNat).pc = s.pc ∧
    ∀ a : Nat, a ≠ s.pc.toNat → a ≠ s.pc.toNat + 1 →
      (s.withFetchWord 16 w.toNat).mem.read a = s.mem.read a

/-- A step on a halted core changes nothing and returns the record in HALT (the spec's decision D6); so does every host
operation but reset leave HALT as it is. -/
def Obligations.HaltedCoreStaysHalted : Prop :=
  ∀ (font : Font) (s : State) (r : HaltRecord), s.halt = some r →
    hostOp font .step (some s) = .next (s, .stepped (.halted r)) ∧
    ∀ (op : HostOp) (t : State) (a : Response), op ≠ .reset → hostOp font op (some s) = .next (t, a) → t.halt = some r

/-- A fetch at PC = 0xFFF or above halts, with word none and addr max(PC, 0x1000), and changes nothing but HALT (the spec's
decisions D5, D8, D9). -/
def Obligations.FetchOutsideMemoryHalts : Prop :=
  ∀ (font : Font) (s : State), s.halt = none → 0xFFF ≤ s.pc.toNat →
    let r : HaltRecord :=
      { reason := .outOfBoundsMemoryAccess, pc := s.pc, word := none, addr := some (max s.pc.toNat 0x1000), key := none }
    hostOp font .step (some s) = .next (s.haltedWith r, .stepped (.halted r))

/-- The catch-all advances PC and changes nothing else, and the host's step that runs it returns Unhandled(a, w); 0x0000 and
0xFFFF are unhandled. The host's step of a recognised word returns Executed when its instruction does not halt, a key wait
that found no key among them, and Halted with the record in HALT when it does (the spec's decisions D2, D21). -/
def Obligations.UnhandledWordOnlyAdvancesPc : Prop :=
  (∀ (w : Word) (s : State), ∃ t, exec (.unhandled w) s = .next t ∧ t.pc = s.pc + 2 ∧ KeepsAllBut [] s t) ∧
  (∀ (font : Font) (w : Word) (s : State), s.halt = none → s.pc.toNat ≤ 0xFFE →
    w.toNat = (s.mem.read s.pc.toNat).toNat * 256 + (s.mem.read (s.pc.toNat + 1)).toNat → recognised w = false →
    hostOp font .step (some s) = .next ({ s with pc := s.pc + 2 }, .stepped (.unhandled s.pc w))) ∧
  (∀ (font : Font) (w : Word) (s t : State), s.halt = none → s.pc.toNat ≤ 0xFFE →
    w.toNat = (s.mem.read s.pc.toNat).toNat * 256 + (s.mem.read (s.pc.toNat + 1)).toNat → recognised w = true →
    exec (decode w) s = .next t →
    (t.halt = none → hostOp font .step (some s) = .next (t, .stepped .executed)) ∧
    (∀ r, t.halt = some r → hostOp font .step (some s) = .next (t, .stepped (.halted r)))) ∧
  (∀ (font : Font) (x : RegNum) (s : State), s.halt = none → s.pc.toNat ≤ 0xFFE →
    (encode (.ldVxK x)).toNat = (s.mem.read s.pc.toNat).toNat * 256 + (s.mem.read (s.pc.toNat + 1)).toNat →
    (∀ k : Nibble, s.keyHeld k = false) → hostOp font .step (some s) = .next (s, .stepped .executed)) ∧
  decode 0x0000#16 = .unhandled 0x0000#16 ∧ decode 0xFFFF#16 = .unhandled 0xFFFF#16

/-! ### Control transfer -/

/-- RET: with SP in 1..16 the last pushed slot goes to PC and SP falls by one, the slot kept; with SP = 0 it halts and only
HALT changes (the spec's decision D5). -/
def Obligations.ReturnPopsOrHalts : Prop :=
  encode .ret = 0x00EE#16 ∧
  (∀ (s : State) (k : Fin 16), s.sp.toNat = k.val + 1 →
    ∃ t, exec .ret s = .next t ∧ t.sp.toNat = k.val ∧ t.pc = s.stack[k] ∧ KeepsAllBut [.stackPointer] s t) ∧
  (∀ s : State, s.sp = 0x00#8 → exec .ret s = .next (s.haltedWith
    { reason := .stackUnderflow, pc := s.pc, word := some 0x00EE#16, addr := none, key := none }))

/-- R102. JP nnn: PC takes nnn, odd or even, and nothing else changes; a jump to itself changes nothing at all. -/
def Obligations.JumpGoesToAddress : Prop :=
  ∀ (nnn : Addr12) (s : State), (encode (.jp nnn)).toNat = 0x1000 + nnn.toNat ∧
    (∃ t, exec (.jp nnn) s = .next t ∧ t.pc.toNat = nnn.toNat ∧ KeepsAllBut [] s t) ∧
    (s.pc.toNat = nnn.toNat → exec (.jp nnn) s = .next s)

/-- JP V0, nnn: PC takes nnn + V0, not reduced; a target above 0xFFE halts at the next fetch (the spec's decision D8). -/
def Obligations.JumpWithOffsetGoesToSum : Prop :=
  ∀ (nnn : Addr12) (s : State), (encode (.jpV0 nnn)).toNat = 0xB000 + nnn.toNat ∧
    ∃ t, exec (.jpV0 nnn) s = .next t ∧ t.pc.toNat = nnn.toNat + (s.reg 0x0#4).toNat ∧ KeepsAllBut [] s t ∧
      (s.halt = none → 0xFFE < t.pc.toNat → step t = .next (t.haltedWith
        { reason := .outOfBoundsMemoryAccess, pc := t.pc, word := none, addr := some (max t.pc.toNat 0x1000),
          key := none }))

/-- CALL nnn: with SP below 16 the slot SP takes a + 2, SP rises by one, PC takes nnn, every other slot stays; with SP = 16
it halts and only HALT changes (the spec's decision D5). -/
def Obligations.CallPushesOrHalts : Prop :=
  ∀ nnn : Addr12, (encode (.call nnn)).toNat = 0x2000 + nnn.toNat ∧
    (∀ (s : State) (k : Fin 16), s.sp.toNat = k.val →
      ∃ t, exec (.call nnn) s = .next t ∧ t.stack[k] = s.pc + 2 ∧ (∀ j : Fin 16, j ≠ k → t.stack[j] = s.stack[j]) ∧
        t.sp.toNat = k.val + 1 ∧ t.pc.toNat = nnn.toNat ∧ KeepsAllBut [.stackPointer, .stackSlots] s t) ∧
    (∀ s : State, s.sp = 0x10#8 → exec (.call nnn) s = .next (s.haltedWith
      { reason := .stackOverflow, pc := s.pc, word := some (encode (.call nnn)), addr := none, key := none }))

/-- The model's choice, log entry 4: with SP above 16, which no run reaches, a call or a return faults. -/
def Obligations.StackPointerAboveSixteenFaults : Prop :=
  ∀ (s : State) (nnn : Addr12), 16 < s.sp.toNat →
    exec .ret s = .fault .stackPointerOutOfRange ∧ exec (.call nnn) s = .fault .stackPointerOutOfRange

/-- SE Vx, kk and SNE Vx, kk: PC leaves at a + 4 when the condition holds, else at a + 2; nothing else changes. -/
def Obligations.SkipOnImmediate : Prop :=
  ∀ (x : RegNum) (kk : Byte) (s : State),
    (encode (.seImm x kk)).toNat = 0x3000 + x.toNat * 256 + kk.toNat ∧
    (encode (.sneImm x kk)).toNat = 0x4000 + x.toNat * 256 + kk.toNat ∧
    (∃ t, exec (.seImm x kk) s = .next t ∧ t.pc = (if s.reg x = kk then s.pc + 4 else s.pc + 2) ∧ KeepsAllBut [] s t) ∧
    (∃ t, exec (.sneImm x kk) s = .next t ∧ t.pc = (if s.reg x ≠ kk then s.pc + 4 else s.pc + 2) ∧ KeepsAllBut [] s t)

/-- SE Vx, Vy and SNE Vx, Vy: PC leaves at a + 4 when the condition holds, else at a + 2; nothing else changes; the fixed
digit must be 0 (the spec's decision D2). -/
def Obligations.SkipOnRegisters : Prop :=
  (∀ (x y : RegNum) (s : State),
    (encode (.seReg x y)).toNat = 0x5000 + x.toNat * 256 + y.toNat * 16 ∧
    (encode (.sneReg x y)).toNat = 0x9000 + x.toNat * 256 + y.toNat * 16 ∧
    (∃ t, exec (.seReg x y) s = .next t ∧ t.pc = (if s.reg x = s.reg y then s.pc + 4 else s.pc + 2) ∧
      KeepsAllBut [] s t) ∧
    (∃ t, exec (.sneReg x y) s = .next t ∧ t.pc = (if s.reg x ≠ s.reg y then s.pc + 4 else s.pc + 2) ∧
      KeepsAllBut [] s t)) ∧
  (∀ w : Word, (opOf w = 0x5#4 ∨ opOf w = 0x9#4) → nOf w ≠ 0x0#4 → decode w = .unhandled w)

/-! ### Register loads and the ALU -/

/-- R121. LD Vx, kk: Vx takes kk; nothing else changes. -/
def Obligations.LoadImmediate : Prop :=
  ∀ (x : RegNum) (kk : Byte) (s : State), (encode (.ldImm x kk)).toNat = 0x6000 + x.toNat * 256 + kk.toNat ∧
    ∃ t, exec (.ldImm x kk) s = .next t ∧ t.reg x = kk ∧ KeepsRegsBut x s t ∧ t.pc = s.pc + 2 ∧
      KeepsAllBut [.general] s t

/-- R122. ADD Vx, kk: Vx takes the sum modulo 256; no flag: VF changes only as the register Vx. -/
def Obligations.AddImmediateWrapsWithoutFlag : Prop :=
  ∀ (x : RegNum) (kk : Byte) (s : State), (encode (.addImm x kk)).toNat = 0x7000 + x.toNat * 256 + kk.toNat ∧
    ∃ t, exec (.addImm x kk) s = .next t ∧ (t.reg x).toNat = ((s.reg x).toNat + kk.toNat) % 256 ∧
      KeepsRegsBut x s t ∧ t.pc = s.pc + 2 ∧ KeepsAllBut [.general] s t

/-- R123. LD Vx, Vy: Vx takes Vy; nothing else changes. -/
def Obligations.CopyRegister : Prop :=
  ∀ (x y : RegNum) (s : State), (encode (.ldReg x y)).toNat = 0x8000 + x.toNat * 256 + y.toNat * 16 ∧
    ∃ t, exec (.ldReg x y) s = .next t ∧ t.reg x = s.reg y ∧ KeepsRegsBut x s t ∧ t.pc = s.pc + 2 ∧
      KeepsAllBut [.general] s t

/-- R124, R125, R126. OR, AND and XOR Vx, Vy, bit by bit; VF changes only as the register Vx. -/
def Obligations.BitwiseOperations : Prop :=
  ∀ (x y : RegNum) (s : State),
    (encode (.orReg x y)).toNat = 0x8001 + x.toNat * 256 + y.toNat * 16 ∧
    (encode (.andReg x y)).toNat = 0x8002 + x.toNat * 256 + y.toNat * 16 ∧
    (encode (.xorReg x y)).toNat = 0x8003 + x.toNat * 256 + y.toNat * 16 ∧
    (∃ t, exec (.orReg x y) s = .next t ∧
      (∀ j, (t.reg x).getLsbD j = ((s.reg x).getLsbD j || (s.reg y).getLsbD j)) ∧
      KeepsRegsBut x s t ∧ t.pc = s.pc + 2 ∧ KeepsAllBut [.general] s t) ∧
    (∃ t, exec (.andReg x y) s = .next t ∧
      (∀ j, (t.reg x).getLsbD j = ((s.reg x).getLsbD j && (s.reg y).getLsbD j)) ∧
      KeepsRegsBut x s t ∧ t.pc = s.pc + 2 ∧ KeepsAllBut [.general] s t) ∧
    (∃ t, exec (.xorReg x y) s = .next t ∧
      (∀ j, (t.reg x).getLsbD j = xor ((s.reg x).getLsbD j) ((s.reg y).getLsbD j)) ∧
      KeepsRegsBut x s t ∧ t.pc = s.pc + 2 ∧ KeepsAllBut [.general] s t)

/-- ADD Vx, Vy: VF takes the carry, last; Vx the sum modulo 256 unless it is VF. The cases with x or y = F are the spec's
decision D4. -/
def Obligations.AddSetsCarry : Prop :=
  ∀ (x y : RegNum) (s : State), (encode (.addReg x y)).toNat = 0x8004 + x.toNat * 256 + y.toNat * 16 ∧
    ∃ t, exec (.addReg x y) s = .next t ∧
      (t.reg VF).toNat = (if (s.reg x).toNat + (s.reg y).toNat > 255 then 1 else 0) ∧
      (x ≠ VF → (t.reg x).toNat = ((s.reg x).toNat + (s.reg y).toNat) % 256) ∧
      (∀ z, z ≠ x → z ≠ VF → t.reg z = s.reg z) ∧ t.pc = s.pc + 2 ∧ KeepsAllBut [.general] s t

/-- SUB and SUBN: VF takes the strict comparison first; then Vx takes the difference modulo 256 of the registers as they
are at that point, so an operand that is VF reads the flag (the spec's decision D4). -/
def Obligations.SubtractionsSetStrictFlag : Prop :=
  ∀ (x y : RegNum) (s : State),
    (encode (.subReg x y)).toNat = 0x8005 + x.toNat * 256 + y.toNat * 16 ∧
    (encode (.subnReg x y)).toNat = 0x8007 + x.toNat * 256 + y.toNat * 16 ∧
    (∃ t, exec (.subReg x y) s = .next t ∧
      (let f := if (s.reg x).toNat > (s.reg y).toNat then 1 else 0
       let a := if x = VF then f else (s.reg x).toNat
       let b := if y = VF then f else (s.reg y).toNat
       (t.reg x).toNat = (a + 256 - b) % 256 ∧ (x ≠ VF → (t.reg VF).toNat = f)) ∧
      (∀ z, z ≠ x → z ≠ VF → t.reg z = s.reg z) ∧ t.pc = s.pc + 2 ∧ KeepsAllBut [.general] s t) ∧
    (∃ t, exec (.subnReg x y) s = .next t ∧
      (let f := if (s.reg y).toNat > (s.reg x).toNat then 1 else 0
       let a := if x = VF then f else (s.reg x).toNat
       let b := if y = VF then f else (s.reg y).toNat
       (t.reg x).toNat = (b + 256 - a) % 256 ∧ (x ≠ VF → (t.reg VF).toNat = f)) ∧
      (∀ z, z ≠ x → z ≠ VF → t.reg z = s.reg z) ∧ t.pc = s.pc + 2 ∧ KeepsAllBut [.general] s t)

/-- SHR and SHL: VF takes the bit shifted out first; then Vx, as it is at that point, is halved or doubled modulo 256; Vy
never matters. The case x = F is the spec's decision D4. -/
def Obligations.ShiftsMoveVxOnly : Prop :=
  ∀ (x y : RegNum) (s : State),
    (encode (.shr x y)).toNat = 0x8006 + x.toNat * 256 + y.toNat * 16 ∧
    (encode (.shl x y)).toNat = 0x800E + x.toNat * 256 + y.toNat * 16 ∧
    (∃ t, exec (.shr x y) s = .next t ∧
      (t.reg x).toNat = (if x = VF then (s.reg x).toNat % 2 else (s.reg x).toNat) / 2 ∧
      (x ≠ VF → (t.reg VF).toNat = (s.reg x).toNat % 2) ∧
      (∀ z, z ≠ x → z ≠ VF → t.reg z = s.reg z) ∧ t.pc = s.pc + 2 ∧ KeepsAllBut [.general] s t) ∧
    (∃ t, exec (.shl x y) s = .next t ∧
      (t.reg x).toNat = (if x = VF then (s.reg x).toNat / 128 else (s.reg x).toNat) * 2 % 256 ∧
      (x ≠ VF → (t.reg VF).toNat = (s.reg x).toNat / 128) ∧
      (∀ z, z ≠ x → z ≠ VF → t.reg z = s.reg z) ∧ t.pc = s.pc + 2 ∧ KeepsAllBut [.general] s t) ∧
    (∀ y', exec (.shr x y') s = exec (.shr x y) s ∧ exec (.shl x y') s = exec (.shl x y) s)

/-- RND Vx, kk: Vx takes the free byte of this execution AND kk (log entry 2; the spec's decision D12), so its bits are 0
where kk's are; nothing else changes, and the next execution draws the next free byte. -/
def Obligations.RandomByteIsMasked : Prop :=
  ∀ (x : RegNum) (kk : Byte) (s : State), (encode (.rnd x kk)).toNat = 0xC000 + x.toNat * 256 + kk.toNat ∧
    ∃ t, exec (.rnd x kk) s = .next t ∧ t.reg x = Config.randomByte s.draws &&& kk ∧
      (∀ j, kk.getLsbD j = false → (t.reg x).getLsbD j = false) ∧ (kk = 0x00#8 → t.reg x = 0x00#8) ∧
      t.draws = s.draws + 1 ∧ KeepsRegsBut x s t ∧ t.pc = s.pc + 2 ∧ KeepsAllBut [.general, .drawCount] s t

/-! ### Index register and memory -/

/-- R141, R143. LD I, nnn and LD F, Vx: I takes nnn, or five times the whole byte Vx; nothing else changes. -/
def Obligations.LoadIndexAndGlyph : Prop :=
  (∀ (nnn : Addr12) (s : State), (encode (.ldI nnn)).toNat = 0xA000 + nnn.toNat ∧
    ∃ t, exec (.ldI nnn) s = .next t ∧ t.i.toNat = nnn.toNat ∧ t.pc = s.pc + 2 ∧ KeepsAllBut [.index] s t) ∧
  (∀ (x : RegNum) (s : State), (encode (.ldF x)).toNat = 0xF029 + x.toNat * 256 ∧
    ∃ t, exec (.ldF x) s = .next t ∧ t.i.toNat = (s.reg x).toNat * 5 ∧ t.pc = s.pc + 2 ∧ KeepsAllBut [.index] s t)

/-- ADD I, Vx: I takes the sum modulo 65536, VF whether the new I is above 0x0F00 (the spec's decisions D4, D9). -/
def Obligations.AddToIndexSetsThresholdFlag : Prop :=
  ∀ (x : RegNum) (s : State), (encode (.addI x)).toNat = 0xF01E + x.toNat * 256 ∧
    ∃ t, exec (.addI x) s = .next t ∧ t.i.toNat = (s.i.toNat + (s.reg x).toNat) % 65536 ∧
      (t.reg VF).toNat = (if t.i.toNat > 0x0F00 then 1 else 0) ∧ KeepsRegsBut VF s t ∧ t.pc = s.pc + 2 ∧
      KeepsAllBut [.general, .index] s t

/-- BCD Vx: the hundreds, tens and ones of Vx at I, I + 1, I + 2, every other byte kept; where I + 2 is above 0xFFF it halts
and only HALT changes (the spec's decision D5). -/
def Obligations.DecimalDigitsStoredOrHalt : Prop :=
  ∀ (x : RegNum) (s : State), (encode (.bcd x)).toNat = 0xF033 + x.toNat * 256 ∧
    (s.i.toNat + 2 ≤ 0xFFF → ∃ t, exec (.bcd x) s = .next t ∧
      (t.mem.read s.i.toNat).toNat = (s.reg x).toNat / 100 ∧
      (t.mem.read (s.i.toNat + 1)).toNat = (s.reg x).toNat / 10 % 10 ∧
      (t.mem.read (s.i.toNat + 2)).toNat = (s.reg x).toNat % 10 ∧
      (∀ a, a < s.i.toNat ∨ s.i.toNat + 2 < a → t.mem.read a = s.mem.read a) ∧ t.pc = s.pc + 2 ∧
      KeepsAllBut [.memory] s t) ∧
    (0xFFF < s.i.toNat + 2 → exec (.bcd x) s = .next (s.haltedWith
      { reason := .outOfBoundsMemoryAccess, pc := s.pc, word := some (encode (.bcd x)),
        addr := some (max s.i.toNat 0x1000), key := none }))

/-- LD [I], Vx: V0..Vx at I..I + x, every other byte and I kept (the spec's decision D11); where I + x is above 0xFFF it halts
and only HALT changes (D5). -/
def Obligations.RegistersStoredOrHalt : Prop :=
  ∀ (x : RegNum) (s : State), (encode (.storeRegs x)).toNat = 0xF055 + x.toNat * 256 ∧
    (s.i.toNat + x.toNat ≤ 0xFFF → ∃ t, exec (.storeRegs x) s = .next t ∧
      (∀ r : RegNum, r.toNat ≤ x.toNat → t.mem.read (s.i.toNat + r.toNat) = s.reg r) ∧
      (∀ a, a < s.i.toNat ∨ s.i.toNat + x.toNat < a → t.mem.read a = s.mem.read a) ∧ t.pc = s.pc + 2 ∧
      KeepsAllBut [.memory] s t) ∧
    (0xFFF < s.i.toNat + x.toNat → exec (.storeRegs x) s = .next (s.haltedWith
      { reason := .outOfBoundsMemoryAccess, pc := s.pc, word := some (encode (.storeRegs x)),
        addr := some (max s.i.toNat 0x1000), key := none }))

/-- LD Vx, [I]: V0..Vx take the bytes at I..I + x, the other registers and I kept (the spec's decision D11); where I + x is
above 0xFFF it halts and only HALT changes (D5). -/
def Obligations.RegistersLoadedOrHalt : Prop :=
  ∀ (x : RegNum) (s : State), (encode (.loadRegs x)).toNat = 0xF065 + x.toNat * 256 ∧
    (s.i.toNat + x.toNat ≤ 0xFFF → ∃ t, exec (.loadRegs x) s = .next t ∧
      (∀ r : RegNum, t.reg r = if r.toNat ≤ x.toNat then s.mem.read (s.i.toNat + r.toNat) else s.reg r) ∧
      t.pc = s.pc + 2 ∧ KeepsAllBut [.general] s t) ∧
    (0xFFF < s.i.toNat + x.toNat → exec (.loadRegs x) s = .next (s.haltedWith
      { reason := .outOfBoundsMemoryAccess, pc := s.pc, word := some (encode (.loadRegs x)),
        addr := some (max s.i.toNat 0x1000), key := none }))

/-! ### Display -/

/-- R161. CLS: every pixel 0 and DIRTY 1; nothing else changes. -/
def Obligations.ClearScreen : Prop :=
  encode .cls = 0x00E0#16 ∧
  ∀ s : State, ∃ t, exec .cls s = .next t ∧ (∀ px py, t.pixel px py = false) ∧ t.dirty = true ∧ t.pc = s.pc + 2 ∧
    KeepsAllBut [.framebuffer, .dirtyFlag] s t

/-- DRW Vx, Vy, n with x and y other than F: exactly the pixels under a sprite bit 1 change, VF is 1 just when one of them was
1 before, DIRTY is 1, nothing else changes. -/
def Obligations.DrawTogglesCoveredPixels : Prop :=
  ∀ (x y : RegNum) (n : Nibble) (s : State), x ≠ VF → y ≠ VF → (n = 0x0#4 ∨ s.i.toNat + n.toNat - 1 ≤ 0xFFF) →
    ∃ t, exec (.drw x y n) s = .next t ∧
      (∀ px py, t.pixel px py ≠ s.pixel px py ↔ SpriteCovers s x y n.toNat px py) ∧
      ((∃ px py, SpriteCovers s x y n.toNat px py ∧ s.pixel px py = true) → t.reg VF = 0x01#8) ∧
      ((¬ ∃ px py, SpriteCovers s x y n.toNat px py ∧ s.pixel px py = true) → t.reg VF = 0x00#8) ∧
      t.dirty = true ∧ KeepsRegsBut VF s t ∧ t.pc = s.pc + 2 ∧ KeepsAllBut [.general, .framebuffer, .dirtyFlag] s t

/-- DRW Vx, Vy, n for every x, y, n: VF and the screen are those of the 8 * n ordered pixel writes of `drawTrace`, where a
coordinate register that is VF reads the live VF (the spec's decision D4); n = 0 reads nothing and never halts; a sprite
byte beyond 0xFFF halts and only HALT changes (D5). -/
def Obligations.DrawIsTheOrderedPixelWrites : Prop :=
  ∀ (x y : RegNum) (n : Nibble) (s : State),
    (encode (.drw x y n)).toNat = 0xD000 + x.toNat * 256 + y.toNat * 16 + n.toNat ∧
    (n = 0x0#4 ∨ s.i.toNat + n.toNat - 1 ≤ 0xFFF → ∃ t, exec (.drw x y n) s = .next t ∧
      t.reg VF = (drawTrace s x y (8 * n.toNat)).1 ∧
      (∀ px py, t.pixel px py = (drawTrace s x y (8 * n.toNat)).2 px py) ∧
      t.dirty = true ∧ KeepsRegsBut VF s t ∧ t.pc = s.pc + 2 ∧ KeepsAllBut [.general, .framebuffer, .dirtyFlag] s t) ∧
    (n ≠ 0x0#4 → 0xFFF < s.i.toNat + n.toNat - 1 → exec (.drw x y n) s = .next (s.haltedWith
      { reason := .outOfBoundsMemoryAccess, pc := s.pc, word := some (encode (.drw x y n)),
        addr := some (max s.i.toNat 0x1000), key := none }))

/-- Drawing the same sprite twice at the same place restores every pixel, and the second draw sets VF just when a pixel under
a sprite bit 1 was 0 before the first (x and y other than F; conflict C3). -/
def Obligations.DrawTwiceRestoresScreen : Prop :=
  ∀ (x y : RegNum) (n : Nibble) (s : State), x ≠ VF → y ≠ VF → (n = 0x0#4 ∨ s.i.toNat + n.toNat - 1 ≤ 0xFFF) →
    ∃ t u, exec (.drw x y n) s = .next t ∧ exec (.drw x y n) t = .next u ∧
      (∀ px py, u.pixel px py = s.pixel px py) ∧
      (u.reg VF = 0x01#8 ↔ ∃ px py, SpriteCovers s x y n.toNat px py ∧ s.pixel px py = false)

/-! ### Keypad and timers -/

/-- SKP Vx and SKNP Vx: for Vx in 0..15 PC leaves at a + 4 when the key is held, or not held, else at a + 2, and nothing else
changes; for Vx above 15 they halt and only HALT changes (the spec's decisions D5, D10). -/
def Obligations.SkipOnKeyOrHalt : Prop :=
  ∀ (x : RegNum) (s : State),
    (encode (.skp x)).toNat = 0xE09E + x.toNat * 256 ∧ (encode (.sknp x)).toNat = 0xE0A1 + x.toNat * 256 ∧
    (∀ k : Nibble, (s.reg x).toNat = k.toNat →
      (∃ t, exec (.skp x) s = .next t ∧ t.pc = (if s.keyHeld k = true then s.pc + 4 else s.pc + 2) ∧
        KeepsAllBut [] s t) ∧
      (∃ t, exec (.sknp x) s = .next t ∧ t.pc = (if s.keyHeld k = false then s.pc + 4 else s.pc + 2) ∧
        KeepsAllBut [] s t)) ∧
    (0xF < (s.reg x).toNat →
      exec (.skp x) s = .next (s.haltedWith
        { reason := .keyIndexOutOfRange, pc := s.pc, word := some (encode (.skp x)), addr := none,
          key := some (s.reg x) }) ∧
      exec (.sknp x) s = .next (s.haltedWith
        { reason := .keyIndexOutOfRange, pc := s.pc, word := some (encode (.sknp x)), addr := none,
          key := some (s.reg x) }))

/-- R183. LD Vx, K: with keys held, Vx takes the highest-indexed and PC leaves at a + 2; with none held, no state changes at
all and PC stays a. -/
def Obligations.KeyWaitTakesHighestKey : Prop :=
  ∀ (x : RegNum) (s : State), (encode (.ldVxK x)).toNat = 0xF00A + x.toNat * 256 ∧
    (∀ k : Nibble, s.keyHeld k = true → (∀ j : Nibble, k.toNat < j.toNat → s.keyHeld j = false) →
      ∃ t, exec (.ldVxK x) s = .next t ∧ (t.reg x).toNat = k.toNat ∧ KeepsRegsBut x s t ∧ t.pc = s.pc + 2 ∧
        KeepsAllBut [.general] s t) ∧
    ((∀ k : Nibble, s.keyHeld k = false) → exec (.ldVxK x) s = .next s)

/-- R184, R185, and the load of ST. LD Vx, DT, LD DT, Vx and LD ST, Vx: one register takes the other; nothing else changes. -/
def Obligations.TimerTransfers : Prop :=
  ∀ (x : RegNum) (s : State),
    (encode (.ldVxDt x)).toNat = 0xF007 + x.toNat * 256 ∧ (encode (.ldDtVx x)).toNat = 0xF015 + x.toNat * 256 ∧
    (encode (.ldStVx x)).toNat = 0xF018 + x.toNat * 256 ∧
    (∃ t, exec (.ldVxDt x) s = .next t ∧ t.reg x = s.dt ∧ KeepsRegsBut x s t ∧ t.pc = s.pc + 2 ∧
      KeepsAllBut [.general] s t) ∧
    (∃ t, exec (.ldDtVx x) s = .next t ∧ t.dt = s.reg x ∧ t.pc = s.pc + 2 ∧ KeepsAllBut [.delayTimer] s t) ∧
    (∃ t, exec (.ldStVx x) s = .next t ∧ t.st = s.reg x ∧ t.pc = s.pc + 2 ∧ KeepsAllBut [.soundTimer] s t)

/-! ### Whole-machine rules -/

/-- Halts are precise: a step that halts changes HALT and nothing else, and the record names the address PC stays at (the
spec's decision D5). -/
def Obligations.HaltsArePrecise : Prop :=
  ∀ (s t : State) (r : HaltRecord), s.halt = none → step s = .next t → t.halt = some r →
    t = s.haltedWith r ∧ r.pc = s.pc

/-- What halts, and nothing else does: each reason comes from its instructions alone, under its condition alone, and the
record holds the instruction's word; the reasons have the codes 1 to 4 (reasons, codes and record are the spec's decision
D7). -/
def Obligations.HaltReasonsHaveTheirCauses : Prop :=
  (HaltReason.stackOverflow.code = 1 ∧ HaltReason.stackUnderflow.code = 2 ∧
    HaltReason.outOfBoundsMemoryAccess.code = 3 ∧ HaltReason.keyIndexOutOfRange.code = 4) ∧
  ∀ (i : Instr) (s t : State) (r : HaltRecord), s.halt = none → exec i s = .next t → t.halt = some r →
    r.word = some (encode i) ∧ r.Legal ∧
    ((r.reason = .stackOverflow ∧ (∃ nnn, i = .call nnn) ∧ s.sp.toNat = 16) ∨
     (r.reason = .stackUnderflow ∧ i = .ret ∧ s.sp.toNat = 0) ∨
     (r.reason = .outOfBoundsMemoryAccess ∧ r.addr = some (max s.i.toNat 0x1000) ∧
       ((∃ x, i = .bcd x ∧ 0xFFF < s.i.toNat + 2) ∨
        (∃ x : RegNum, (i = .storeRegs x ∨ i = .loadRegs x) ∧ 0xFFF < s.i.toNat + x.toNat) ∨
        (∃ (x y : RegNum) (n : Nibble), i = .drw x y n ∧ n ≠ 0x0#4 ∧ 0xFFF < s.i.toNat + n.toNat - 1))) ∨
     (r.reason = .keyIndexOutOfRange ∧
       ∃ x, (i = .skp x ∨ i = .sknp x) ∧ r.key = some (s.reg x) ∧ 0xF < (s.reg x).toNat))

/-- Each part of the state but VF has its writers: V0..VE only the instructions that name the register as destination, or
Fx65 up to it; PC leaves a + 2 only by jumps, call, return, skips, the key wait, or a halt, which keeps it at a; I only Annn,
Fx1E, Fx29; SP only a call or return, the slots only a call; DT and ST only their loads; memory only Fx33 and Fx55; the screen
and DIRTY only 00E0 and Dxyn; HALT only the eight instructions that can halt (decisions D5, D7); the count of draws only Cxkk
(the model's own, log entry 2); the keypad and FONT nothing. -/
def Obligations.EachPartHasItsWriters : Prop :=
  ∀ (i : Instr) (s t : State), exec i s = .next t →
    (∀ z : RegNum, z ≠ VF → t.reg z ≠ s.reg z →
      (∃ kk, i = .ldImm z kk ∨ i = .addImm z kk ∨ i = .rnd z kk) ∨
      (∃ y, i = .ldReg z y ∨ i = .orReg z y ∨ i = .andReg z y ∨ i = .xorReg z y) ∨
      (∃ y, i = .addReg z y ∨ i = .subReg z y ∨ i = .shr z y ∨ i = .subnReg z y ∨ i = .shl z y) ∨
      i = .ldVxDt z ∨ i = .ldVxK z ∨ ∃ x : RegNum, i = .loadRegs x ∧ z.toNat ≤ x.toNat) ∧
    (t.pc ≠ s.pc + 2 →
      (∃ nnn, i = .jp nnn ∨ i = .call nnn ∨ i = .jpV0 nnn) ∨ i = .ret ∨
      (∃ x kk, i = .seImm x kk ∨ i = .sneImm x kk) ∨ (∃ x y, i = .seReg x y ∨ i = .sneReg x y) ∨
      (∃ x, i = .skp x ∨ i = .sknp x ∨ i = .ldVxK x) ∨
      (((∃ x, i = .bcd x ∨ i = .storeRegs x ∨ i = .loadRegs x) ∨ ∃ x y n, i = .drw x y n) ∧
        t.pc = s.pc ∧ t.halt ≠ none)) ∧
    (t.halt ≠ s.halt → (∃ nnn, i = .call nnn) ∨ i = .ret ∨ (∃ x, i = .skp x ∨ i = .sknp x) ∨
      (∃ x, i = .bcd x ∨ i = .storeRegs x ∨ i = .loadRegs x) ∨ ∃ x y n, i = .drw x y n) ∧
    (t.draws ≠ s.draws → t.draws = s.draws + 1 ∧ ∃ x kk, i = .rnd x kk) ∧
    (t.i ≠ s.i → (∃ nnn, i = .ldI nnn) ∨ (∃ x, i = .addI x) ∨ (∃ x, i = .ldF x)) ∧
    (t.sp ≠ s.sp → (∃ nnn, i = .call nnn) ∨ i = .ret) ∧
    (t.stack ≠ s.stack → ∃ nnn, i = .call nnn) ∧
    (t.dt ≠ s.dt → ∃ x, i = .ldDtVx x) ∧
    (t.st ≠ s.st → ∃ x, i = .ldStVx x) ∧
    ((∃ a, t.mem.read a ≠ s.mem.read a) → (∃ x, i = .bcd x) ∨ (∃ x, i = .storeRegs x)) ∧
    (t.fb ≠ s.fb → i = .cls ∨ ∃ x y n, i = .drw x y n) ∧
    (t.dirty ≠ s.dirty → t.dirty = true ∧ (i = .cls ∨ ∃ x y n, i = .drw x y n)) ∧
    t.keys = s.keys ∧ t.mem.font = s.mem.font

/-- VF is written by the seven flag instructions and by instructions that name VF as their destination, and by no other. -/
def Obligations.FlagHasItsWriters : Prop :=
  ∀ (i : Instr) (s t : State), exec i s = .next t → t.reg VF ≠ s.reg VF →
    (∃ x y, i = .addReg x y ∨ i = .subReg x y ∨ i = .shr x y ∨ i = .subnReg x y ∨ i = .shl x y) ∨
    (∃ x y n, i = .drw x y n) ∨ (∃ x, i = .addI x) ∨
    (∃ kk, i = .ldImm VF kk ∨ i = .addImm VF kk ∨ i = .rnd VF kk) ∨
    (∃ y, i = .ldReg VF y ∨ i = .orReg VF y ∨ i = .andReg VF y ∨ i = .xorReg VF y) ∨
    i = .ldVxDt VF ∨ i = .ldVxK VF ∨ i = .loadRegs VF

/-- Where every instruction leaves PC: as `pcAfter` says when it does not halt, at a when it does. -/
def Obligations.EveryInstructionLeavesPcAsTabled : Prop :=
  ∀ (i : Instr) (s t : State), s.halt = none → exec i s = .next t →
    (t.halt = none → t.pc = pcAfter i s) ∧ (t.halt ≠ none → t.pc = s.pc)

/-- No instruction reads DIRTY or ST: two states that differ only there go on to states that differ only there, a Cxkk drawing
the same free byte in both (log entry 2). -/
def Obligations.DirtyAndSoundTimerAreNeverRead : Prop :=
  ∀ (i : Instr) (s t : State) (d : Bool) (b : Byte), exec i s = .next t →
    ∃ t', exec i { s with dirty := d, st := b } = .next t' ∧ { t' with dirty := t.dirty, st := t.st } = t

/-! ### Legal states -/

/-- Reset leaves a legal state, for every FONT. -/
def Obligations.ResetStateIsLegal : Prop := ∀ font : Font, (State.resetWith font).Inv

/-- Every step from a legal state leaves a legal state: SP stays in 0..16, PC at most 0x10FE, the slots at most 0x1000, memory
canonical, a halt record legal and at PC. -/
def Obligations.StepKeepsLegalStates : Prop := ∀ s t : State, s.Inv → step s = .next t → t.Inv

/-- Every host operation on a legal state leaves a legal state. -/
def Obligations.HostOperationsKeepLegalStates : Prop :=
  ∀ (font : Font) (op : HostOp) (s t : State) (a : Response),
    s.Inv → hostOp font op (some s) = .next (t, a) → t.Inv

/-- From a legal state a step always answers a next state: no fault and no refusal. -/
def Obligations.LegalStatesAlwaysStep : Prop := ∀ s : State, s.Inv → ∃ t, step s = .next t

/-- Memory's canonical form is canonical: two memories in it, of one FONT, that read the same at every address are equal. -/
def Obligations.EqualReadsMeanEqualMemory : Prop :=
  ∀ m m' : Memory, m.wf = true → m'.wf = true → m.font = m'.font → (∀ a, m.read a = m'.read a) → m = m'

/-! ### Sequences -/

/-- Fx55 then Fx65 with unchanged I, memory and x brings V0..Vx back, whatever the registers held in between. -/
def Obligations.StoreThenLoadBringsRegistersBack : Prop :=
  ∀ (x : RegNum) (s : State), s.i.toNat + x.toNat ≤ 0xFFF →
    ∃ t, exec (.storeRegs x) s = .next t ∧
      ∀ u : State, u.i = t.i → u.mem = t.mem →
        ∃ v, exec (.loadRegs x) u = .next v ∧ ∀ r : RegNum, r.toNat ≤ x.toNat → v.reg r = s.reg r

/-- A return that finds the stack as a call left it goes to the address after the call and brings SP back. -/
def Obligations.CallThenReturnComesBack : Prop :=
  ∀ (nnn : Addr12) (s : State), s.sp.toNat < 16 →
    ∃ t, exec (.call nnn) s = .next t ∧
      ∀ u : State, u.sp = t.sp → u.stack = t.stack →
        ∃ v, exec .ret u = .next v ∧ v.pc = s.pc + 2 ∧ v.sp = s.sp

/-- A store over the next instruction is seen by the next fetch: Fx55 with x at least 1 and I = a + 2 makes the next step run
the word V0 || V1. -/
def Obligations.StoredCodeRunsNext : Prop :=
  ∀ (x : RegNum) (s : State), s.halt = none → 1 ≤ x.toNat → s.i.toNat + x.toNat ≤ 0xFFF → s.i = s.pc + 2 →
    ∃ t, exec (.storeRegs x) s = .next t ∧
      ∀ w : Word, w.toNat = (s.reg 0x0#4).toNat * 256 + (s.reg 0x1#4).toNat → step t = exec (decode w) t

/-! ### Reset and the host's operations -/

/-- The state reset leaves, as R42's table has it, for every FONT (the spec's decision D13; log entry 1). That an address above
0xFFF reads as 0 is the model's choice (log entry 9). -/
def Obligations.ResetLeavesTheTabledValues : Prop :=
  ∀ (font : Font) (s : State), s = State.resetWith font →
    (∀ r, s.reg r = 0x00#8) ∧ s.i = 0x0000#16 ∧ s.pc = 0x0200#16 ∧ s.sp = 0x00#8 ∧
    (∀ k : Fin 16, s.stack[k] = 0x0000#16) ∧ s.dt = 0x00#8 ∧ s.st = 0x00#8 ∧
    (∀ a : Fin 80, s.mem.read a.val = font[a]) ∧ (∀ a, 0x050 ≤ a → s.mem.read a = 0x00#8) ∧
    (∀ px py, s.pixel px py = false) ∧ s.dirty = true ∧ (∀ k, s.keyHeld k = false) ∧ s.halt = none

/-- Reset leaves the reset state whatever was before, the core before its first reset among it, but for the model's own count
of draws, which goes on (log entry 2); every other operation before the first reset is refused (the spec's decision D14). -/
def Obligations.ResetComesFirst : Prop :=
  ∀ font : Font,
    hostOp font .reset none = .next (State.resetWith font, .none) ∧
    (∀ s : State, hostOp font .reset (some s) = .next ({ State.resetWith font with draws := s.draws }, .none)) ∧
    (∀ op : HostOp, op ≠ .reset → hostOp font op none = .refused .beforeReset)

/-- The tick takes one from each timer that is nonzero and changes nothing else, on a halted core too (the spec's decision
D6). -/
def Obligations.TickCountsTimersDown : Prop :=
  ∀ (font : Font) (s : State), ∃ t, hostOp font .tickTimers (some s) = .next (t, .none) ∧
    t.dt.toNat = s.dt.toNat - 1 ∧ t.st.toNat = s.st.toNat - 1 ∧ t.pc = s.pc ∧
    KeepsAllBut [.delayTimer, .soundTimer] s t

/-- key_down and key_up set one key cell and change nothing else; a key outside 0..15 is refused (the spec's decision D17). -/
def Obligations.KeyOperationsSetOneCell : Prop :=
  ∀ (font : Font) (s : State),
    (∀ k : Nibble, ∃ t, hostOp font (.keyDown k.toNat) (some s) = .next (t, .none) ∧ t.keyHeld k = true ∧
      (∀ j, j ≠ k → t.keyHeld j = s.keyHeld j) ∧ t.pc = s.pc ∧ KeepsAllBut [.keypad] s t) ∧
    (∀ k : Nibble, ∃ t, hostOp font (.keyUp k.toNat) (some s) = .next (t, .none) ∧ t.keyHeld k = false ∧
      (∀ j, j ≠ k → t.keyHeld j = s.keyHeld j) ∧ t.pc = s.pc ∧ KeepsAllBut [.keypad] s t) ∧
    (∀ n, 16 ≤ n → hostOp font (.keyDown n) (some s) = .refused (.keyOutsideInterface n) ∧
      hostOp font (.keyUp n) (some s) = .refused (.keyOutsideInterface n))

/-- load_rom copies its bytes from 0x200 upward, drops those past 0xFFF and changes nothing else (the spec's decision D18). -/
def Obligations.RomIsCopiedFrom0x200 : Prop :=
  ∀ (font : Font) (s : State) (bytes : List Byte),
    ∃ t, hostOp font (.loadRom bytes) (some s) = .next (t, .none) ∧
      (∀ (k : Nat) (h : k < bytes.length), 0x200 + k ≤ 0xFFF → t.mem.read (0x200 + k) = bytes[k]) ∧
      (∀ a, a < 0x200 ∨ 0x200 + bytes.length ≤ a ∨ 0xFFF < a → t.mem.read a = s.mem.read a) ∧
      t.pc = s.pc ∧ KeepsAllBut [.memory] s t

/-- R226. clear_dirty clears DIRTY and changes nothing else; no other operation clears it. -/
def Obligations.OnlyClearDirtyClearsDirty : Prop :=
  ∀ (font : Font) (s : State),
    (∃ t, hostOp font .clearDirty (some s) = .next (t, .none) ∧ t.dirty = false ∧ t.pc = s.pc ∧
      KeepsAllBut [.dirtyFlag] s t) ∧
    (∀ (op : HostOp) (t : State) (a : Response), hostOp font op (some s) = .next (t, a) →
      s.dirty = true → t.dirty = false → op = .clearDirty)

/-- The host's reads return the screen, DIRTY and ST and change nothing (reading never clears DIRTY: the spec's decision
D19). -/
def Obligations.ReadsReturnTheStateUnchanged : Prop :=
  ∀ (font : Font) (s : State),
    (∃ g, hostOp font .readFramebuffer (some s) = .next (s, .framebuffer g) ∧
      ∀ (px : Fin 64) (py : Fin 32), g[py][px] = s.pixel px py) ∧
    hostOp font .readDirty (some s) = .next (s, .dirty s.dirty) ∧
    hostOp font .readSoundTimer (some s) = .next (s, .soundTimer s.st)
end

