-- ==== Sys2Proof/Laws/Decode.lean ====
section
/-! SUPPORT. The bits of the encoder's formats, their fields (which is all a proof about decoding an encoded word needs),
and a word as its fields put back together. -/

namespace Sys2Proof

section formats

variable (op : Nibble) (x y : RegNum) (n : Nibble) (kk : Byte) (nnn : Addr12)

theorem getLsbD_encNNN (j : Nat) :
    (encNNN op nnn).getLsbD j = if j < 12 then nnn.getLsbD j else op.getLsbD (j - 12) := by
  exact BitVec.getLsbD_append

theorem getLsbD_encXKK (j : Nat) :
    (encXKK op x kk).getLsbD j =
      if j < 8 then kk.getLsbD j else if j < 12 then x.getLsbD (j - 8) else op.getLsbD (j - 12) := by
  have h : (encXKK op x kk).getLsbD j = if j < 8 then kk.getLsbD j else (op ++ x).getLsbD (j - 8) :=
    BitVec.getLsbD_append
  have h' : (op ++ x).getLsbD (j - 8) = if j - 8 < 4 then x.getLsbD (j - 8) else op.getLsbD (j - 8 - 4) :=
    BitVec.getLsbD_append
  rw [h, h']
  by_cases h1 : j < 8
  · simp [h1]
  · by_cases h2 : j < 12
    · have : j - 8 < 4 := by omega
      simp [h1, h2, this]
    · have h3 : ¬ j - 8 < 4 := by omega
      have h4 : j - 8 - 4 = j - 12 := by omega
      simp [h1, h2, h3, h4]

theorem encXYN_eq : encXYN op x y n = encXKK op x (y ++ n) := by
  apply BitVec.eq_of_getLsbD_eq
  intro j _
  rw [getLsbD_encXKK]
  have h : (encXYN op x y n).getLsbD j = if j < 4 then n.getLsbD j else (op ++ x ++ y).getLsbD (j - 4) :=
    BitVec.getLsbD_append
  rw [h, BitVec.getLsbD_append, BitVec.getLsbD_append, BitVec.getLsbD_append]
  by_cases h1 : j < 4
  · have : j < 8 := by omega
    simp [h1, this]
  · by_cases h2 : j < 8
    · have : j - 4 < 4 := by omega
      simp [h1, h2, this]
    · by_cases h3 : j < 12
      · have h4 : ¬ j - 4 < 4 := by omega
        have h5 : j - 4 - 4 < 4 := by omega
        have h6 : j - 4 - 4 = j - 8 := by omega
        have h7 : j - 8 < 4 := by omega
        simp [h1, h2, h3, h4, h6, h7]
      · have h4 : ¬ j - 4 < 4 := by omega
        have h6 : j - 4 - 4 = j - 8 := by omega
        have h7 : ¬ j - 8 < 4 := by omega
        have h8 : j - 8 - 4 = j - 12 := by omega
        simp [h1, h2, h3, h4, h6, h7, h8]

@[simp] theorem opOf_encNNN : opOf (encNNN op nnn) = op := by
  apply BitVec.eq_of_getLsbD_eq; intro j hj
  rw [opOf, BitVec.getLsbD_extractLsb', getLsbD_encNNN]; simp [hj]
@[simp] theorem nnnOf_encNNN : nnnOf (encNNN op nnn) = nnn := by
  apply BitVec.eq_of_getLsbD_eq; intro j hj
  rw [nnnOf, BitVec.getLsbD_extractLsb', getLsbD_encNNN]; simp [hj]

@[simp] theorem opOf_encXKK : opOf (encXKK op x kk) = op := by
  apply BitVec.eq_of_getLsbD_eq; intro j hj
  have h : ¬ 12 + j < 8 := by omega
  rw [opOf, BitVec.getLsbD_extractLsb', getLsbD_encXKK]; simp [hj, h]
@[simp] theorem xOf_encXKK : xOf (encXKK op x kk) = x := by
  apply BitVec.eq_of_getLsbD_eq; intro j hj
  have h : 8 + j < 12 := by omega
  rw [xOf, BitVec.getLsbD_extractLsb', getLsbD_encXKK]; simp [hj, h]
@[simp] theorem kkOf_encXKK : kkOf (encXKK op x kk) = kk := by
  apply BitVec.eq_of_getLsbD_eq; intro j hj
  rw [kkOf, BitVec.getLsbD_extractLsb', getLsbD_encXKK]; simp [hj]
@[simp] theorem yOf_encXKK : yOf (encXKK op x kk) = kk.extractLsb' 4 4 := by
  apply BitVec.eq_of_getLsbD_eq; intro j hj
  have h : 4 + j < 8 := by omega
  rw [yOf, BitVec.getLsbD_extractLsb', getLsbD_encXKK, BitVec.getLsbD_extractLsb']; simp [hj, h]
@[simp] theorem nOf_encXKK : nOf (encXKK op x kk) = kk.extractLsb' 0 4 := by
  apply BitVec.eq_of_getLsbD_eq; intro j hj
  have h : j < 8 := by omega
  rw [nOf, BitVec.getLsbD_extractLsb', getLsbD_encXKK, BitVec.getLsbD_extractLsb']; simp [hj, h]

@[simp] theorem opOf_encXYN : opOf (encXYN op x y n) = op := by simp [encXYN_eq]
@[simp] theorem xOf_encXYN : xOf (encXYN op x y n) = x := by simp [encXYN_eq]
@[simp] theorem yOf_encXYN : yOf (encXYN op x y n) = y := by
  rw [encXYN_eq, yOf_encXKK]
  apply BitVec.eq_of_getLsbD_eq; intro j hj
  rw [BitVec.getLsbD_extractLsb', BitVec.getLsbD_append]
  simp [hj]
@[simp] theorem nOf_encXYN : nOf (encXYN op x y n) = n := by
  rw [encXYN_eq, nOf_encXKK]
  apply BitVec.eq_of_getLsbD_eq; intro j hj
  rw [BitVec.getLsbD_extractLsb', BitVec.getLsbD_append]
  simp [hj]

/-- The value of a word of format NNN, as each rule's encoding line writes it. -/
theorem toNat_encNNN : (encNNN op nnn).toNat = op.toNat * 4096 + nnn.toNat := by
  have h : (encNNN op nnn).toNat = op.toNat <<< 12 ||| nnn.toNat := BitVec.toNat_append op nnn
  rw [h, Nat.shiftLeft_eq, Nat.mul_comm, ← Nat.two_pow_add_eq_or_of_lt nnn.isLt]

/-- The value of a word of format XKK. -/
theorem toNat_encXKK : (encXKK op x kk).toNat = op.toNat * 4096 + x.toNat * 256 + kk.toNat := by
  have h : (encXKK op x kk).toNat = (op ++ x).toNat <<< 8 ||| kk.toNat := BitVec.toNat_append (op ++ x) kk
  rw [h, BitVec.toNat_append, Nat.shiftLeft_eq, Nat.shiftLeft_eq, Nat.mul_comm op.toNat,
    ← Nat.two_pow_add_eq_or_of_lt x.isLt, Nat.mul_comm _ (2 ^ 8), ← Nat.two_pow_add_eq_or_of_lt kk.isLt]
  omega

/-- The value of a word of format XYN. -/
theorem toNat_encXYN :
    (encXYN op x y n).toNat = op.toNat * 4096 + x.toNat * 256 + y.toNat * 16 + n.toNat := by
  rw [encXYN_eq, toNat_encXKK, BitVec.toNat_append, Nat.shiftLeft_eq, Nat.mul_comm _ (2 ^ 4),
    ← Nat.two_pow_add_eq_or_of_lt n.isLt]
  omega

end formats

/-- A word is its `op` and its `nnn`. -/
theorem encNNN_fields (w : Word) : encNNN (opOf w) (nnnOf w) = w := by
  apply BitVec.eq_of_getLsbD_eq
  intro j hj
  rw [getLsbD_encNNN, opOf, nnnOf, BitVec.getLsbD_extractLsb', BitVec.getLsbD_extractLsb']
  by_cases h : j < 12
  · simp [h]
  · have h1 : j - 12 < 4 := by omega
    have h2 : 12 + (j - 12) = j := by omega
    simp [h, h1, h2]

/-- A word is its `op`, its `x` and its `kk`. -/
theorem encXKK_fields (w : Word) : encXKK (opOf w) (xOf w) (kkOf w) = w := by
  apply BitVec.eq_of_getLsbD_eq
  intro j hj
  rw [getLsbD_encXKK, opOf, xOf, kkOf, BitVec.getLsbD_extractLsb', BitVec.getLsbD_extractLsb',
    BitVec.getLsbD_extractLsb']
  by_cases h : j < 8
  · simp [h]
  · by_cases h' : j < 12
    · have h1 : j - 8 < 4 := by omega
      have h2 : 8 + (j - 8) = j := by omega
      simp [h, h', h1, h2]
    · have h1 : j - 12 < 4 := by omega
      have h2 : 12 + (j - 12) = j := by omega
      simp [h, h', h1, h2]

/-- The byte `kk` of a word is its nibbles `y` and `n` (R71). -/
theorem kkOf_eq (w : Word) : kkOf w = yOf w ++ nOf w := by
  apply BitVec.eq_of_getLsbD_eq
  intro j hj
  rw [BitVec.getLsbD_append, kkOf, yOf, nOf, BitVec.getLsbD_extractLsb', BitVec.getLsbD_extractLsb',
    BitVec.getLsbD_extractLsb']
  by_cases h : j < 4
  · simp [h, hj]
  · have h1 : j - 4 < 4 := by omega
    have h2 : 4 + (j - 4) = j := by omega
    simp [h, hj, h1, h2]

/-- A word is its four nibbles. -/
theorem encXYN_fields (w : Word) : encXYN (opOf w) (xOf w) (yOf w) (nOf w) = w := by
  rw [encXYN_eq, ← kkOf_eq, encXKK_fields]

/-- The bytes of a word, put together in memory's order, are the word (R52). -/
theorem wordOfBytes_bytes (w : Word) : wordOfBytes (hiByte w) (loByte w) = w := by
  apply BitVec.eq_of_getLsbD_eq
  intro j hj
  have h : (wordOfBytes (hiByte w) (loByte w)).getLsbD j =
      if j < 8 then (loByte w).getLsbD j else (hiByte w).getLsbD (j - 8) := BitVec.getLsbD_append
  rw [h, hiByte, loByte, BitVec.getLsbD_extractLsb', BitVec.getLsbD_extractLsb']
  by_cases h : j < 8
  · simp [h]
  · have h1 : j - 8 < 8 := by omega
    have h2 : 8 + (j - 8) = j := by omega
    simp [h, h1, h2]

/-- The word of two bytes, from its value (R52). -/
theorem wordOfBytes_of_toNat {hi lo : Byte} {w : Word} (h : w.toNat = hi.toNat * 256 + lo.toNat) :
    wordOfBytes hi lo = w := by
  apply BitVec.eq_of_toNat_eq
  have h' : (wordOfBytes hi lo).toNat = hi.toNat <<< 8 ||| lo.toNat := BitVec.toNat_append hi lo
  rw [h', Nat.shiftLeft_eq, Nat.mul_comm, ← Nat.two_pow_add_eq_or_of_lt lo.isLt]
  omega

/-- A nibble is one of the sixteen. -/
theorem nibble_cases (o : Nibble) :
    o = 0x0#4 ∨ o = 0x1#4 ∨ o = 0x2#4 ∨ o = 0x3#4 ∨ o = 0x4#4 ∨ o = 0x5#4 ∨ o = 0x6#4 ∨ o = 0x7#4 ∨
    o = 0x8#4 ∨ o = 0x9#4 ∨ o = 0xA#4 ∨ o = 0xB#4 ∨ o = 0xC#4 ∨ o = 0xD#4 ∨ o = 0xE#4 ∨ o = 0xF#4 := by
  have h : o.toNat < 16 := o.isLt
  have e : o = BitVec.ofNat 4 o.toNat := by simp
  generalize o.toNat = k at h e
  subst e
  interval_cases k <;> simp

end Sys2Proof
end

