-- ==== Sys2Proof/Laws/Memory.lean ====
section
/-! SUPPORT. The laws of memory: what a read sees of a write, and that every memory operation keeps the canonical form. -/

namespace Sys2Proof.Machine

/-! ### The cell list -/

theorem lookup_cons_cell (a b : Nat) (v : Byte) (cs : List Host.Cell) :
    List.lookup b ((a, v) :: cs) = if b = a then some v else cs.lookup b := by
  by_cases h : b = a
  · simp [h]
  · simp [List.lookup_cons, h, beq_eq_false_iff_ne.mpr h]

theorem lookup_putCell (a b : Nat) (v : Byte) (cs : List Host.Cell) :
    (putCell a v cs).lookup b = if b = a then some v else cs.lookup b := by
  induction cs with
  | nil => rw [putCell, lookup_cons_cell]
  | cons c cs ih =>
    obtain ⟨ca, cv⟩ := c
    by_cases h1 : a < ca
    · rw [putCell, if_pos h1, lookup_cons_cell]
    · by_cases h2 : ca = a
      · rw [putCell, if_neg h1, if_pos h2, lookup_cons_cell, lookup_cons_cell, h2]
        split <;> rfl
      · rw [putCell, if_neg h1, if_neg h2, lookup_cons_cell, lookup_cons_cell, ih]
        by_cases h : b = a
        · have hac : ¬ a = ca := fun e => h2 e.symm
          simp [h, hac]
        · simp [h]

theorem lookup_eraseCell (a b : Nat) (cs : List Host.Cell) :
    (eraseCell a cs).lookup b = if b = a then none else cs.lookup b := by
  induction cs with
  | nil => simp [eraseCell]
  | cons c cs ih =>
    obtain ⟨ca, cv⟩ := c
    rw [eraseCell] at ih ⊢
    by_cases hc : ca = a
    · rw [List.filter_cons_of_neg (by simp [hc]), ih, lookup_cons_cell, hc]
      split <;> rfl
    · rw [List.filter_cons_of_pos (by simp [hc]), lookup_cons_cell, lookup_cons_cell, ih]
      by_cases h : b = a
      · have hac : ¬ a = ca := fun e => hc e.symm
        simp [h, hac]
      · simp [h]

/-! ### Reads of writes -/

@[simp] theorem Memory.write_font (m : Memory) (a : Nat) (v : Byte) : (m.write a v).font = m.font := by
  simp only [Memory.write]; split <;> rfl

@[simp] theorem Memory.write_unlisted (m : Memory) (a b : Nat) (v : Byte) :
    (m.write a v).unlisted b = m.unlisted b := by
  simp [Memory.unlisted]

/-- A read after a write: the byte written at its own address (where that exists), every other byte as before. -/
theorem Memory.read_write (m : Memory) (a b : Nat) (v : Byte) :
    (m.write a v).read b = if b = a ∧ a < 0x1000 then v else m.read b := by
  by_cases ha : a < 0x1000
  · have hw : m.write a v =
        { m with cells := if v = m.unlisted a then eraseCell a m.cells else putCell a v m.cells } := by
      simp [Memory.write, Config.memSize, ha]
    have hu : (m.write a v).unlisted b = m.unlisted b := by simp
    simp only [Memory.read, hu]
    simp only [hw]
    by_cases hv : v = m.unlisted a
    · by_cases hb : b = a
      · simp [hv, hb, lookup_eraseCell, ha]
      · simp [hv, hb, lookup_eraseCell]
    · by_cases hb : b = a
      · simp [hv, hb, lookup_putCell, ha]
      · simp [hv, hb, lookup_putCell]
  · simp [Memory.write, Config.memSize, ha]

@[simp] theorem Memory.writeBytes_font (m : Memory) (a : Nat) (bs : List Byte) : (m.writeBytes a bs).font = m.font := by
  induction bs generalizing m a with
  | nil => rfl
  | cons b bs ih => simp [Memory.writeBytes, ih]

/-- A read after writing bytes from `a` upward: the byte written at an address of the range that exists, every other byte
as before. -/
theorem Memory.read_writeBytes (m : Memory) (a b : Nat) (bs : List Byte) :
    (m.writeBytes a bs).read b =
      if h : a ≤ b ∧ b < a + bs.length ∧ b < 0x1000 then bs[b - a]'(by omega) else m.read b := by
  induction bs generalizing m a with
  | nil =>
    have : ¬ (a ≤ b ∧ b < a + ([] : List Byte).length ∧ b < 0x1000) := by simp; omega
    rw [dif_neg this, Memory.writeBytes]
  | cons c bs ih =>
    simp only [Memory.writeBytes, ih, Memory.read_write, List.length_cons]
    by_cases hb : b = a
    · subst hb
      by_cases h1 : b < 0x1000
      · have h2 : ¬ (b + 1 ≤ b ∧ b < b + 1 + bs.length ∧ b < 0x1000) := by omega
        have h3 : b ≤ b ∧ b < b + (bs.length + 1) ∧ b < 0x1000 := by omega
        rw [dif_neg h2, dif_pos h3]
        simp [h1]
      · have h2 : ¬ (b + 1 ≤ b ∧ b < b + 1 + bs.length ∧ b < 0x1000) := by omega
        have h3 : ¬ (b ≤ b ∧ b < b + (bs.length + 1) ∧ b < 0x1000) := by omega
        rw [dif_neg h2, dif_neg h3]
        simp [h1]
    · by_cases h : a + 1 ≤ b ∧ b < a + 1 + bs.length ∧ b < 0x1000
      · have h3 : a ≤ b ∧ b < a + (bs.length + 1) ∧ b < 0x1000 := by omega
        rw [dif_pos h, dif_pos h3]
        have : b - a = (b - (a + 1)) + 1 := by omega
        simp [this]
      · have h3 : ¬ (a ≤ b ∧ b < a + (bs.length + 1) ∧ b < 0x1000) := by omega
        rw [dif_neg h, dif_neg h3]
        simp [hb]

/-! ### The canonical form -/

/-- The canonical form, as facts about the entries. -/
theorem Memory.wf_iff (m : Memory) : m.wf = true ↔
    m.cells.Pairwise (fun c d => c.1 < d.1) ∧ ∀ c ∈ m.cells, c.1 < 0x1000 ∧ c.2 ≠ m.unlisted c.1 := by
  unfold Memory.wf Config.memSize
  rw [Bool.and_eq_true, decide_eq_true_eq, List.all_eq_true]
  refine and_congr_right fun _ => forall_congr' fun c => imp_congr_right fun _ => ?_
  rw [Bool.and_eq_true, decide_eq_true_eq, bne_iff_ne]

theorem mem_putCell {a : Nat} {v : Byte} {cs : List Host.Cell} {c : Host.Cell} (h : c ∈ putCell a v cs) :
    c = (a, v) ∨ c ∈ cs := by
  induction cs with
  | nil => simpa [putCell] using h
  | cons d cs ih =>
    simp only [putCell] at h
    split at h
    · simpa using h
    · split at h
      · rcases List.mem_cons.mp h with h | h
        · exact .inl h
        · exact .inr (List.mem_cons_of_mem _ h)
      · rcases List.mem_cons.mp h with h | h
        · exact .inr (by simp [h])
        · rcases ih h with h | h
          · exact .inl h
          · exact .inr (List.mem_cons_of_mem _ h)

theorem pairwise_putCell {a : Nat} {v : Byte} {cs : List Host.Cell} (h : cs.Pairwise (fun c d => c.1 < d.1)) :
    (putCell a v cs).Pairwise (fun c d => c.1 < d.1) := by
  induction cs with
  | nil => simp [putCell]
  | cons d cs ih =>
    obtain ⟨hd, hcs⟩ := List.pairwise_cons.mp h
    simp only [putCell]
    split
    · rename_i h1
      refine List.pairwise_cons.mpr ⟨fun e he => ?_, h⟩
      rcases List.mem_cons.mp he with he | he
      · simpa [he] using h1
      · exact lt_trans h1 (hd e he)
    · split
      · rename_i _ h2
        exact List.pairwise_cons.mpr ⟨fun e he => by simpa [← h2] using hd e he, hcs⟩
      · rename_i h1 h2
        refine List.pairwise_cons.mpr ⟨fun e he => ?_, ih hcs⟩
        rcases mem_putCell he with he | he
        · subst he; simp only; omega
        · exact hd e he

/-- A write keeps the canonical form. -/
theorem Memory.write_wf {m : Memory} (h : m.wf = true) (a : Nat) (v : Byte) : (m.write a v).wf = true := by
  rw [Memory.wf_iff] at h ⊢
  obtain ⟨hp, hc⟩ := h
  simp only [Memory.write_unlisted]
  by_cases ha : a < 0x1000
  · by_cases hv : v = m.unlisted a
    · have hw : (m.write a v).cells = eraseCell a m.cells := by simp [Memory.write, Config.memSize, ha, hv]
      rw [hw]
      exact ⟨hp.filter _, fun c hcm => hc c (List.mem_filter.mp hcm).1⟩
    · have hw : (m.write a v).cells = putCell a v m.cells := by simp [Memory.write, Config.memSize, ha, hv]
      rw [hw]
      refine ⟨pairwise_putCell hp, fun c hcm => ?_⟩
      rcases mem_putCell hcm with h | h
      · subst h; exact ⟨ha, hv⟩
      · exact hc c h
  · have hw : m.write a v = m := by simp [Memory.write, Config.memSize, ha]
    rw [hw]; exact ⟨hp, hc⟩

/-- Writing several bytes keeps the canonical form. -/
theorem Memory.writeBytes_wf {m : Memory} (h : m.wf = true) (a : Nat) (bs : List Byte) :
    (m.writeBytes a bs).wf = true := by
  induction bs generalizing m a with
  | nil => exact h
  | cons b bs ih => exact ih (Memory.write_wf h a b) (a + 1)

/-- The memory of reset is in canonical form, for every FONT. -/
theorem Memory.wf_reset (font : Font) : (State.resetWith font).mem.wf = true := by
  simp [Memory.wf_iff, State.resetWith]

end Sys2Proof.Machine
end

