-- ==== Sys2Proof/Laws/State.lean ====
section
/-! SUPPORT. The small lemmas of State: one per field per update, and what the accessors `reg`, `pixel` and `keyHeld` see of
each update, so that no proof unfolds a record update. -/

namespace Sys2Proof.Machine

variable (s : State)

/-! ### State.advance -/

@[simp] theorem State.advance_v : s.advance.v = s.v := rfl
@[simp] theorem State.advance_i : s.advance.i = s.i := rfl
@[simp] theorem State.advance_pc : s.advance.pc = s.pc + 2 := rfl
@[simp] theorem State.advance_sp : s.advance.sp = s.sp := rfl
@[simp] theorem State.advance_stack : s.advance.stack = s.stack := rfl
@[simp] theorem State.advance_dt : s.advance.dt = s.dt := rfl
@[simp] theorem State.advance_st : s.advance.st = s.st := rfl
@[simp] theorem State.advance_mem : s.advance.mem = s.mem := rfl
@[simp] theorem State.advance_fb : s.advance.fb = s.fb := rfl
@[simp] theorem State.advance_dirty : s.advance.dirty = s.dirty := rfl
@[simp] theorem State.advance_keys : s.advance.keys = s.keys := rfl
@[simp] theorem State.advance_halt : s.advance.halt = s.halt := rfl
@[simp] theorem State.advance_draws : s.advance.draws = s.draws := rfl
@[simp] theorem State.advance_reg (r : RegNum) : s.advance.reg r = s.reg r := rfl
@[simp] theorem State.advance_pixel (qx : Fin 64) (qy : Fin 32) : s.advance.pixel qx qy = s.pixel qx qy := rfl
@[simp] theorem State.advance_keyHeld (k : Nibble) : s.advance.keyHeld k = s.keyHeld k := rfl

/-! ### State.resetTo -/

@[simp] theorem State.resetTo_v (font : Font) : (s.resetTo font).v = (State.resetWith font).v := rfl
@[simp] theorem State.resetTo_i (font : Font) : (s.resetTo font).i = (State.resetWith font).i := rfl
@[simp] theorem State.resetTo_pc (font : Font) : (s.resetTo font).pc = (State.resetWith font).pc := rfl
@[simp] theorem State.resetTo_sp (font : Font) : (s.resetTo font).sp = (State.resetWith font).sp := rfl
@[simp] theorem State.resetTo_stack (font : Font) : (s.resetTo font).stack = (State.resetWith font).stack := rfl
@[simp] theorem State.resetTo_dt (font : Font) : (s.resetTo font).dt = (State.resetWith font).dt := rfl
@[simp] theorem State.resetTo_st (font : Font) : (s.resetTo font).st = (State.resetWith font).st := rfl
@[simp] theorem State.resetTo_mem (font : Font) : (s.resetTo font).mem = (State.resetWith font).mem := rfl
@[simp] theorem State.resetTo_fb (font : Font) : (s.resetTo font).fb = (State.resetWith font).fb := rfl
@[simp] theorem State.resetTo_dirty (font : Font) : (s.resetTo font).dirty = (State.resetWith font).dirty := rfl
@[simp] theorem State.resetTo_keys (font : Font) : (s.resetTo font).keys = (State.resetWith font).keys := rfl
@[simp] theorem State.resetTo_halt (font : Font) : (s.resetTo font).halt = (State.resetWith font).halt := rfl
@[simp] theorem State.resetTo_draws (font : Font) : (s.resetTo font).draws = s.draws := rfl
@[simp] theorem State.resetTo_reg (font : Font) (r : RegNum) : (s.resetTo font).reg r = (State.resetWith font).reg r := rfl
@[simp] theorem State.resetTo_pixel (font : Font) (qx : Fin 64) (qy : Fin 32) :
    (s.resetTo font).pixel qx qy = (State.resetWith font).pixel qx qy := rfl
@[simp] theorem State.resetTo_keyHeld (font : Font) (k : Nibble) :
    (s.resetTo font).keyHeld k = (State.resetWith font).keyHeld k := rfl

/-! ### State.jumpTo -/

@[simp] theorem State.jumpTo_v (t : Word) : (s.jumpTo t).v = s.v := rfl
@[simp] theorem State.jumpTo_i (t : Word) : (s.jumpTo t).i = s.i := rfl
@[simp] theorem State.jumpTo_pc (t : Word) : (s.jumpTo t).pc = t := rfl
@[simp] theorem State.jumpTo_sp (t : Word) : (s.jumpTo t).sp = s.sp := rfl
@[simp] theorem State.jumpTo_stack (t : Word) : (s.jumpTo t).stack = s.stack := rfl
@[simp] theorem State.jumpTo_dt (t : Word) : (s.jumpTo t).dt = s.dt := rfl
@[simp] theorem State.jumpTo_st (t : Word) : (s.jumpTo t).st = s.st := rfl
@[simp] theorem State.jumpTo_mem (t : Word) : (s.jumpTo t).mem = s.mem := rfl
@[simp] theorem State.jumpTo_fb (t : Word) : (s.jumpTo t).fb = s.fb := rfl
@[simp] theorem State.jumpTo_dirty (t : Word) : (s.jumpTo t).dirty = s.dirty := rfl
@[simp] theorem State.jumpTo_keys (t : Word) : (s.jumpTo t).keys = s.keys := rfl
@[simp] theorem State.jumpTo_halt (t : Word) : (s.jumpTo t).halt = s.halt := rfl
@[simp] theorem State.jumpTo_draws (t : Word) : (s.jumpTo t).draws = s.draws := rfl
@[simp] theorem State.jumpTo_reg (t : Word) (r : RegNum) : (s.jumpTo t).reg r = s.reg r := rfl
@[simp] theorem State.jumpTo_pixel (t : Word) (qx : Fin 64) (qy : Fin 32) : (s.jumpTo t).pixel qx qy = s.pixel qx qy := rfl
@[simp] theorem State.jumpTo_keyHeld (t : Word) (k : Nibble) : (s.jumpTo t).keyHeld k = s.keyHeld k := rfl

/-! ### State.skipIf -/

@[simp] theorem State.skipIf_v (c : Bool) : (s.skipIf c).v = s.v := rfl
@[simp] theorem State.skipIf_i (c : Bool) : (s.skipIf c).i = s.i := rfl
@[simp] theorem State.skipIf_pc (c : Bool) : (s.skipIf c).pc = if c then s.pc + 2 else s.pc := rfl
@[simp] theorem State.skipIf_sp (c : Bool) : (s.skipIf c).sp = s.sp := rfl
@[simp] theorem State.skipIf_stack (c : Bool) : (s.skipIf c).stack = s.stack := rfl
@[simp] theorem State.skipIf_dt (c : Bool) : (s.skipIf c).dt = s.dt := rfl
@[simp] theorem State.skipIf_st (c : Bool) : (s.skipIf c).st = s.st := rfl
@[simp] theorem State.skipIf_mem (c : Bool) : (s.skipIf c).mem = s.mem := rfl
@[simp] theorem State.skipIf_fb (c : Bool) : (s.skipIf c).fb = s.fb := rfl
@[simp] theorem State.skipIf_dirty (c : Bool) : (s.skipIf c).dirty = s.dirty := rfl
@[simp] theorem State.skipIf_keys (c : Bool) : (s.skipIf c).keys = s.keys := rfl
@[simp] theorem State.skipIf_halt (c : Bool) : (s.skipIf c).halt = s.halt := rfl
@[simp] theorem State.skipIf_draws (c : Bool) : (s.skipIf c).draws = s.draws := rfl
@[simp] theorem State.skipIf_reg (c : Bool) (r : RegNum) : (s.skipIf c).reg r = s.reg r := rfl
@[simp] theorem State.skipIf_pixel (c : Bool) (qx : Fin 64) (qy : Fin 32) : (s.skipIf c).pixel qx qy = s.pixel qx qy := rfl
@[simp] theorem State.skipIf_keyHeld (c : Bool) (k : Nibble) : (s.skipIf c).keyHeld k = s.keyHeld k := rfl

/-! ### State.setI -/

@[simp] theorem State.setI_v (w : Word) : (s.setI w).v = s.v := rfl
@[simp] theorem State.setI_i (w : Word) : (s.setI w).i = w := rfl
@[simp] theorem State.setI_pc (w : Word) : (s.setI w).pc = s.pc := rfl
@[simp] theorem State.setI_sp (w : Word) : (s.setI w).sp = s.sp := rfl
@[simp] theorem State.setI_stack (w : Word) : (s.setI w).stack = s.stack := rfl
@[simp] theorem State.setI_dt (w : Word) : (s.setI w).dt = s.dt := rfl
@[simp] theorem State.setI_st (w : Word) : (s.setI w).st = s.st := rfl
@[simp] theorem State.setI_mem (w : Word) : (s.setI w).mem = s.mem := rfl
@[simp] theorem State.setI_fb (w : Word) : (s.setI w).fb = s.fb := rfl
@[simp] theorem State.setI_dirty (w : Word) : (s.setI w).dirty = s.dirty := rfl
@[simp] theorem State.setI_keys (w : Word) : (s.setI w).keys = s.keys := rfl
@[simp] theorem State.setI_halt (w : Word) : (s.setI w).halt = s.halt := rfl
@[simp] theorem State.setI_draws (w : Word) : (s.setI w).draws = s.draws := rfl
@[simp] theorem State.setI_reg (w : Word) (r : RegNum) : (s.setI w).reg r = s.reg r := rfl
@[simp] theorem State.setI_pixel (w : Word) (qx : Fin 64) (qy : Fin 32) : (s.setI w).pixel qx qy = s.pixel qx qy := rfl
@[simp] theorem State.setI_keyHeld (w : Word) (k : Nibble) : (s.setI w).keyHeld k = s.keyHeld k := rfl

/-! ### State.setDt -/

@[simp] theorem State.setDt_v (b : Byte) : (s.setDt b).v = s.v := rfl
@[simp] theorem State.setDt_i (b : Byte) : (s.setDt b).i = s.i := rfl
@[simp] theorem State.setDt_pc (b : Byte) : (s.setDt b).pc = s.pc := rfl
@[simp] theorem State.setDt_sp (b : Byte) : (s.setDt b).sp = s.sp := rfl
@[simp] theorem State.setDt_stack (b : Byte) : (s.setDt b).stack = s.stack := rfl
@[simp] theorem State.setDt_dt (b : Byte) : (s.setDt b).dt = b := rfl
@[simp] theorem State.setDt_st (b : Byte) : (s.setDt b).st = s.st := rfl
@[simp] theorem State.setDt_mem (b : Byte) : (s.setDt b).mem = s.mem := rfl
@[simp] theorem State.setDt_fb (b : Byte) : (s.setDt b).fb = s.fb := rfl
@[simp] theorem State.setDt_dirty (b : Byte) : (s.setDt b).dirty = s.dirty := rfl
@[simp] theorem State.setDt_keys (b : Byte) : (s.setDt b).keys = s.keys := rfl
@[simp] theorem State.setDt_halt (b : Byte) : (s.setDt b).halt = s.halt := rfl
@[simp] theorem State.setDt_draws (b : Byte) : (s.setDt b).draws = s.draws := rfl
@[simp] theorem State.setDt_reg (b : Byte) (r : RegNum) : (s.setDt b).reg r = s.reg r := rfl
@[simp] theorem State.setDt_pixel (b : Byte) (qx : Fin 64) (qy : Fin 32) : (s.setDt b).pixel qx qy = s.pixel qx qy := rfl
@[simp] theorem State.setDt_keyHeld (b : Byte) (k : Nibble) : (s.setDt b).keyHeld k = s.keyHeld k := rfl

/-! ### State.setSt -/

@[simp] theorem State.setSt_v (b : Byte) : (s.setSt b).v = s.v := rfl
@[simp] theorem State.setSt_i (b : Byte) : (s.setSt b).i = s.i := rfl
@[simp] theorem State.setSt_pc (b : Byte) : (s.setSt b).pc = s.pc := rfl
@[simp] theorem State.setSt_sp (b : Byte) : (s.setSt b).sp = s.sp := rfl
@[simp] theorem State.setSt_stack (b : Byte) : (s.setSt b).stack = s.stack := rfl
@[simp] theorem State.setSt_dt (b : Byte) : (s.setSt b).dt = s.dt := rfl
@[simp] theorem State.setSt_st (b : Byte) : (s.setSt b).st = b := rfl
@[simp] theorem State.setSt_mem (b : Byte) : (s.setSt b).mem = s.mem := rfl
@[simp] theorem State.setSt_fb (b : Byte) : (s.setSt b).fb = s.fb := rfl
@[simp] theorem State.setSt_dirty (b : Byte) : (s.setSt b).dirty = s.dirty := rfl
@[simp] theorem State.setSt_keys (b : Byte) : (s.setSt b).keys = s.keys := rfl
@[simp] theorem State.setSt_halt (b : Byte) : (s.setSt b).halt = s.halt := rfl
@[simp] theorem State.setSt_draws (b : Byte) : (s.setSt b).draws = s.draws := rfl
@[simp] theorem State.setSt_reg (b : Byte) (r : RegNum) : (s.setSt b).reg r = s.reg r := rfl
@[simp] theorem State.setSt_pixel (b : Byte) (qx : Fin 64) (qy : Fin 32) : (s.setSt b).pixel qx qy = s.pixel qx qy := rfl
@[simp] theorem State.setSt_keyHeld (b : Byte) (k : Nibble) : (s.setSt b).keyHeld k = s.keyHeld k := rfl

/-! ### State.countDraw -/

@[simp] theorem State.countDraw_v : s.countDraw.v = s.v := rfl
@[simp] theorem State.countDraw_i : s.countDraw.i = s.i := rfl
@[simp] theorem State.countDraw_pc : s.countDraw.pc = s.pc := rfl
@[simp] theorem State.countDraw_sp : s.countDraw.sp = s.sp := rfl
@[simp] theorem State.countDraw_stack : s.countDraw.stack = s.stack := rfl
@[simp] theorem State.countDraw_dt : s.countDraw.dt = s.dt := rfl
@[simp] theorem State.countDraw_st : s.countDraw.st = s.st := rfl
@[simp] theorem State.countDraw_mem : s.countDraw.mem = s.mem := rfl
@[simp] theorem State.countDraw_fb : s.countDraw.fb = s.fb := rfl
@[simp] theorem State.countDraw_dirty : s.countDraw.dirty = s.dirty := rfl
@[simp] theorem State.countDraw_keys : s.countDraw.keys = s.keys := rfl
@[simp] theorem State.countDraw_halt : s.countDraw.halt = s.halt := rfl
@[simp] theorem State.countDraw_draws : s.countDraw.draws = s.draws + 1 := rfl
@[simp] theorem State.countDraw_reg (r : RegNum) : s.countDraw.reg r = s.reg r := rfl
@[simp] theorem State.countDraw_pixel (qx : Fin 64) (qy : Fin 32) : s.countDraw.pixel qx qy = s.pixel qx qy := rfl
@[simp] theorem State.countDraw_keyHeld (k : Nibble) : s.countDraw.keyHeld k = s.keyHeld k := rfl

/-! ### State.storeBytes -/

@[simp] theorem State.storeBytes_v (a : Nat) (bs : List Byte) : (s.storeBytes a bs).v = s.v := rfl
@[simp] theorem State.storeBytes_i (a : Nat) (bs : List Byte) : (s.storeBytes a bs).i = s.i := rfl
@[simp] theorem State.storeBytes_pc (a : Nat) (bs : List Byte) : (s.storeBytes a bs).pc = s.pc := rfl
@[simp] theorem State.storeBytes_sp (a : Nat) (bs : List Byte) : (s.storeBytes a bs).sp = s.sp := rfl
@[simp] theorem State.storeBytes_stack (a : Nat) (bs : List Byte) : (s.storeBytes a bs).stack = s.stack := rfl
@[simp] theorem State.storeBytes_dt (a : Nat) (bs : List Byte) : (s.storeBytes a bs).dt = s.dt := rfl
@[simp] theorem State.storeBytes_st (a : Nat) (bs : List Byte) : (s.storeBytes a bs).st = s.st := rfl
@[simp] theorem State.storeBytes_mem (a : Nat) (bs : List Byte) : (s.storeBytes a bs).mem = s.mem.writeBytes a bs := rfl
@[simp] theorem State.storeBytes_fb (a : Nat) (bs : List Byte) : (s.storeBytes a bs).fb = s.fb := rfl
@[simp] theorem State.storeBytes_dirty (a : Nat) (bs : List Byte) : (s.storeBytes a bs).dirty = s.dirty := rfl
@[simp] theorem State.storeBytes_keys (a : Nat) (bs : List Byte) : (s.storeBytes a bs).keys = s.keys := rfl
@[simp] theorem State.storeBytes_halt (a : Nat) (bs : List Byte) : (s.storeBytes a bs).halt = s.halt := rfl
@[simp] theorem State.storeBytes_draws (a : Nat) (bs : List Byte) : (s.storeBytes a bs).draws = s.draws := rfl
@[simp] theorem State.storeBytes_reg (a : Nat) (bs : List Byte) (r : RegNum) : (s.storeBytes a bs).reg r = s.reg r := rfl
@[simp] theorem State.storeBytes_pixel (a : Nat) (bs : List Byte) (qx : Fin 64) (qy : Fin 32) : (s.storeBytes a bs).pixel qx qy = s.pixel qx qy := rfl
@[simp] theorem State.storeBytes_keyHeld (a : Nat) (bs : List Byte) (k : Nibble) : (s.storeBytes a bs).keyHeld k = s.keyHeld k := rfl

/-! ### State.setHalt -/

@[simp] theorem State.setHalt_v (h : Option HaltRecord) : (s.setHalt h).v = s.v := rfl
@[simp] theorem State.setHalt_i (h : Option HaltRecord) : (s.setHalt h).i = s.i := rfl
@[simp] theorem State.setHalt_pc (h : Option HaltRecord) : (s.setHalt h).pc = s.pc := rfl
@[simp] theorem State.setHalt_sp (h : Option HaltRecord) : (s.setHalt h).sp = s.sp := rfl
@[simp] theorem State.setHalt_stack (h : Option HaltRecord) : (s.setHalt h).stack = s.stack := rfl
@[simp] theorem State.setHalt_dt (h : Option HaltRecord) : (s.setHalt h).dt = s.dt := rfl
@[simp] theorem State.setHalt_st (h : Option HaltRecord) : (s.setHalt h).st = s.st := rfl
@[simp] theorem State.setHalt_mem (h : Option HaltRecord) : (s.setHalt h).mem = s.mem := rfl
@[simp] theorem State.setHalt_fb (h : Option HaltRecord) : (s.setHalt h).fb = s.fb := rfl
@[simp] theorem State.setHalt_dirty (h : Option HaltRecord) : (s.setHalt h).dirty = s.dirty := rfl
@[simp] theorem State.setHalt_keys (h : Option HaltRecord) : (s.setHalt h).keys = s.keys := rfl
@[simp] theorem State.setHalt_halt (h : Option HaltRecord) : (s.setHalt h).halt = h := rfl
@[simp] theorem State.setHalt_draws (h : Option HaltRecord) : (s.setHalt h).draws = s.draws := rfl
@[simp] theorem State.setHalt_reg (h : Option HaltRecord) (r : RegNum) : (s.setHalt h).reg r = s.reg r := rfl
@[simp] theorem State.setHalt_pixel (h : Option HaltRecord) (qx : Fin 64) (qy : Fin 32) : (s.setHalt h).pixel qx qy = s.pixel qx qy := rfl
@[simp] theorem State.setHalt_keyHeld (h : Option HaltRecord) (k : Nibble) : (s.setHalt h).keyHeld k = s.keyHeld k := rfl

/-! ### State.setReg -/

@[simp] theorem State.setReg_v (x : RegNum) (b : Byte) : (s.setReg x b).v = s.v.set x.toNat b x.isLt := rfl
@[simp] theorem State.setReg_i (x : RegNum) (b : Byte) : (s.setReg x b).i = s.i := rfl
@[simp] theorem State.setReg_pc (x : RegNum) (b : Byte) : (s.setReg x b).pc = s.pc := rfl
@[simp] theorem State.setReg_sp (x : RegNum) (b : Byte) : (s.setReg x b).sp = s.sp := rfl
@[simp] theorem State.setReg_stack (x : RegNum) (b : Byte) : (s.setReg x b).stack = s.stack := rfl
@[simp] theorem State.setReg_dt (x : RegNum) (b : Byte) : (s.setReg x b).dt = s.dt := rfl
@[simp] theorem State.setReg_st (x : RegNum) (b : Byte) : (s.setReg x b).st = s.st := rfl
@[simp] theorem State.setReg_mem (x : RegNum) (b : Byte) : (s.setReg x b).mem = s.mem := rfl
@[simp] theorem State.setReg_fb (x : RegNum) (b : Byte) : (s.setReg x b).fb = s.fb := rfl
@[simp] theorem State.setReg_dirty (x : RegNum) (b : Byte) : (s.setReg x b).dirty = s.dirty := rfl
@[simp] theorem State.setReg_keys (x : RegNum) (b : Byte) : (s.setReg x b).keys = s.keys := rfl
@[simp] theorem State.setReg_halt (x : RegNum) (b : Byte) : (s.setReg x b).halt = s.halt := rfl
@[simp] theorem State.setReg_draws (x : RegNum) (b : Byte) : (s.setReg x b).draws = s.draws := rfl
@[simp] theorem State.setReg_pixel (x : RegNum) (b : Byte) (qx : Fin 64) (qy : Fin 32) : (s.setReg x b).pixel qx qy = s.pixel qx qy := rfl
@[simp] theorem State.setReg_keyHeld (x : RegNum) (b : Byte) (k : Nibble) : (s.setReg x b).keyHeld k = s.keyHeld k := rfl

/-! ### State.setFlag -/

@[simp] theorem State.setFlag_v (c : Bool) : (s.setFlag c).v = s.v.set 15 (flagByte c) := rfl
@[simp] theorem State.setFlag_i (c : Bool) : (s.setFlag c).i = s.i := rfl
@[simp] theorem State.setFlag_pc (c : Bool) : (s.setFlag c).pc = s.pc := rfl
@[simp] theorem State.setFlag_sp (c : Bool) : (s.setFlag c).sp = s.sp := rfl
@[simp] theorem State.setFlag_stack (c : Bool) : (s.setFlag c).stack = s.stack := rfl
@[simp] theorem State.setFlag_dt (c : Bool) : (s.setFlag c).dt = s.dt := rfl
@[simp] theorem State.setFlag_st (c : Bool) : (s.setFlag c).st = s.st := rfl
@[simp] theorem State.setFlag_mem (c : Bool) : (s.setFlag c).mem = s.mem := rfl
@[simp] theorem State.setFlag_fb (c : Bool) : (s.setFlag c).fb = s.fb := rfl
@[simp] theorem State.setFlag_dirty (c : Bool) : (s.setFlag c).dirty = s.dirty := rfl
@[simp] theorem State.setFlag_keys (c : Bool) : (s.setFlag c).keys = s.keys := rfl
@[simp] theorem State.setFlag_halt (c : Bool) : (s.setFlag c).halt = s.halt := rfl
@[simp] theorem State.setFlag_draws (c : Bool) : (s.setFlag c).draws = s.draws := rfl
@[simp] theorem State.setFlag_pixel (c : Bool) (qx : Fin 64) (qy : Fin 32) : (s.setFlag c).pixel qx qy = s.pixel qx qy := rfl
@[simp] theorem State.setFlag_keyHeld (c : Bool) (k : Nibble) : (s.setFlag c).keyHeld k = s.keyHeld k := rfl

/-! ### State.orFlag -/

@[simp] theorem State.orFlag_v (c : Bool) : (s.orFlag c).v = s.v.set 15 (s.reg VF ||| flagByte c) := rfl
@[simp] theorem State.orFlag_i (c : Bool) : (s.orFlag c).i = s.i := rfl
@[simp] theorem State.orFlag_pc (c : Bool) : (s.orFlag c).pc = s.pc := rfl
@[simp] theorem State.orFlag_sp (c : Bool) : (s.orFlag c).sp = s.sp := rfl
@[simp] theorem State.orFlag_stack (c : Bool) : (s.orFlag c).stack = s.stack := rfl
@[simp] theorem State.orFlag_dt (c : Bool) : (s.orFlag c).dt = s.dt := rfl
@[simp] theorem State.orFlag_st (c : Bool) : (s.orFlag c).st = s.st := rfl
@[simp] theorem State.orFlag_mem (c : Bool) : (s.orFlag c).mem = s.mem := rfl
@[simp] theorem State.orFlag_fb (c : Bool) : (s.orFlag c).fb = s.fb := rfl
@[simp] theorem State.orFlag_dirty (c : Bool) : (s.orFlag c).dirty = s.dirty := rfl
@[simp] theorem State.orFlag_keys (c : Bool) : (s.orFlag c).keys = s.keys := rfl
@[simp] theorem State.orFlag_halt (c : Bool) : (s.orFlag c).halt = s.halt := rfl
@[simp] theorem State.orFlag_draws (c : Bool) : (s.orFlag c).draws = s.draws := rfl
@[simp] theorem State.orFlag_pixel (c : Bool) (qx : Fin 64) (qy : Fin 32) : (s.orFlag c).pixel qx qy = s.pixel qx qy := rfl
@[simp] theorem State.orFlag_keyHeld (c : Bool) (k : Nibble) : (s.orFlag c).keyHeld k = s.keyHeld k := rfl

/-! ### State.setPixel -/

@[simp] theorem State.setPixel_v (px : Fin 64) (py : Fin 32) (b : Bool) : (s.setPixel px py b).v = s.v := rfl
@[simp] theorem State.setPixel_i (px : Fin 64) (py : Fin 32) (b : Bool) : (s.setPixel px py b).i = s.i := rfl
@[simp] theorem State.setPixel_pc (px : Fin 64) (py : Fin 32) (b : Bool) : (s.setPixel px py b).pc = s.pc := rfl
@[simp] theorem State.setPixel_sp (px : Fin 64) (py : Fin 32) (b : Bool) : (s.setPixel px py b).sp = s.sp := rfl
@[simp] theorem State.setPixel_stack (px : Fin 64) (py : Fin 32) (b : Bool) : (s.setPixel px py b).stack = s.stack := rfl
@[simp] theorem State.setPixel_dt (px : Fin 64) (py : Fin 32) (b : Bool) : (s.setPixel px py b).dt = s.dt := rfl
@[simp] theorem State.setPixel_st (px : Fin 64) (py : Fin 32) (b : Bool) : (s.setPixel px py b).st = s.st := rfl
@[simp] theorem State.setPixel_mem (px : Fin 64) (py : Fin 32) (b : Bool) : (s.setPixel px py b).mem = s.mem := rfl
@[simp] theorem State.setPixel_fb (px : Fin 64) (py : Fin 32) (b : Bool) : (s.setPixel px py b).fb = s.fb.set py (s.fb[py].set px b) := rfl
@[simp] theorem State.setPixel_dirty (px : Fin 64) (py : Fin 32) (b : Bool) : (s.setPixel px py b).dirty = s.dirty := rfl
@[simp] theorem State.setPixel_keys (px : Fin 64) (py : Fin 32) (b : Bool) : (s.setPixel px py b).keys = s.keys := rfl
@[simp] theorem State.setPixel_halt (px : Fin 64) (py : Fin 32) (b : Bool) : (s.setPixel px py b).halt = s.halt := rfl
@[simp] theorem State.setPixel_draws (px : Fin 64) (py : Fin 32) (b : Bool) : (s.setPixel px py b).draws = s.draws := rfl
@[simp] theorem State.setPixel_reg (px : Fin 64) (py : Fin 32) (b : Bool) (r : RegNum) : (s.setPixel px py b).reg r = s.reg r := rfl
@[simp] theorem State.setPixel_keyHeld (px : Fin 64) (py : Fin 32) (b : Bool) (k : Nibble) : (s.setPixel px py b).keyHeld k = s.keyHeld k := rfl

/-! ### State.clearFb -/

@[simp] theorem State.clearFb_v : s.clearFb.v = s.v := rfl
@[simp] theorem State.clearFb_i : s.clearFb.i = s.i := rfl
@[simp] theorem State.clearFb_pc : s.clearFb.pc = s.pc := rfl
@[simp] theorem State.clearFb_sp : s.clearFb.sp = s.sp := rfl
@[simp] theorem State.clearFb_stack : s.clearFb.stack = s.stack := rfl
@[simp] theorem State.clearFb_dt : s.clearFb.dt = s.dt := rfl
@[simp] theorem State.clearFb_st : s.clearFb.st = s.st := rfl
@[simp] theorem State.clearFb_mem : s.clearFb.mem = s.mem := rfl
@[simp] theorem State.clearFb_fb : s.clearFb.fb = Vector.replicate 32 (Vector.replicate 64 false) := rfl
@[simp] theorem State.clearFb_dirty : s.clearFb.dirty = s.dirty := rfl
@[simp] theorem State.clearFb_keys : s.clearFb.keys = s.keys := rfl
@[simp] theorem State.clearFb_halt : s.clearFb.halt = s.halt := rfl
@[simp] theorem State.clearFb_draws : s.clearFb.draws = s.draws := rfl
@[simp] theorem State.clearFb_reg (r : RegNum) : s.clearFb.reg r = s.reg r := rfl
@[simp] theorem State.clearFb_keyHeld (k : Nibble) : s.clearFb.keyHeld k = s.keyHeld k := rfl

/-! ### State.markDirty -/

@[simp] theorem State.markDirty_v : s.markDirty.v = s.v := rfl
@[simp] theorem State.markDirty_i : s.markDirty.i = s.i := rfl
@[simp] theorem State.markDirty_pc : s.markDirty.pc = s.pc := rfl
@[simp] theorem State.markDirty_sp : s.markDirty.sp = s.sp := rfl
@[simp] theorem State.markDirty_stack : s.markDirty.stack = s.stack := rfl
@[simp] theorem State.markDirty_dt : s.markDirty.dt = s.dt := rfl
@[simp] theorem State.markDirty_st : s.markDirty.st = s.st := rfl
@[simp] theorem State.markDirty_mem : s.markDirty.mem = s.mem := rfl
@[simp] theorem State.markDirty_fb : s.markDirty.fb = s.fb := rfl
@[simp] theorem State.markDirty_dirty : s.markDirty.dirty = true := rfl
@[simp] theorem State.markDirty_keys : s.markDirty.keys = s.keys := rfl
@[simp] theorem State.markDirty_halt : s.markDirty.halt = s.halt := rfl
@[simp] theorem State.markDirty_draws : s.markDirty.draws = s.draws := rfl
@[simp] theorem State.markDirty_reg (r : RegNum) : s.markDirty.reg r = s.reg r := rfl
@[simp] theorem State.markDirty_pixel (qx : Fin 64) (qy : Fin 32) : s.markDirty.pixel qx qy = s.pixel qx qy := rfl
@[simp] theorem State.markDirty_keyHeld (k : Nibble) : s.markDirty.keyHeld k = s.keyHeld k := rfl

/-! ### State.tickTimers -/

@[simp] theorem State.tickTimers_v : s.tickTimers.v = s.v := rfl
@[simp] theorem State.tickTimers_i : s.tickTimers.i = s.i := rfl
@[simp] theorem State.tickTimers_pc : s.tickTimers.pc = s.pc := rfl
@[simp] theorem State.tickTimers_sp : s.tickTimers.sp = s.sp := rfl
@[simp] theorem State.tickTimers_stack : s.tickTimers.stack = s.stack := rfl
@[simp] theorem State.tickTimers_dt : s.tickTimers.dt = if s.dt = 0x00#8 then s.dt else s.dt - 1 := rfl
@[simp] theorem State.tickTimers_st : s.tickTimers.st = if s.st = 0x00#8 then s.st else s.st - 1 := rfl
@[simp] theorem State.tickTimers_mem : s.tickTimers.mem = s.mem := rfl
@[simp] theorem State.tickTimers_fb : s.tickTimers.fb = s.fb := rfl
@[simp] theorem State.tickTimers_dirty : s.tickTimers.dirty = s.dirty := rfl
@[simp] theorem State.tickTimers_keys : s.tickTimers.keys = s.keys := rfl
@[simp] theorem State.tickTimers_halt : s.tickTimers.halt = s.halt := rfl
@[simp] theorem State.tickTimers_draws : s.tickTimers.draws = s.draws := rfl
@[simp] theorem State.tickTimers_reg (r : RegNum) : s.tickTimers.reg r = s.reg r := rfl
@[simp] theorem State.tickTimers_pixel (qx : Fin 64) (qy : Fin 32) : s.tickTimers.pixel qx qy = s.pixel qx qy := rfl
@[simp] theorem State.tickTimers_keyHeld (k : Nibble) : s.tickTimers.keyHeld k = s.keyHeld k := rfl

/-! ### State.setKey -/

@[simp] theorem State.setKey_v (n : Nat) (h : Bool) : (s.setKey n h).v = s.v := rfl
@[simp] theorem State.setKey_i (n : Nat) (h : Bool) : (s.setKey n h).i = s.i := rfl
@[simp] theorem State.setKey_pc (n : Nat) (h : Bool) : (s.setKey n h).pc = s.pc := rfl
@[simp] theorem State.setKey_sp (n : Nat) (h : Bool) : (s.setKey n h).sp = s.sp := rfl
@[simp] theorem State.setKey_stack (n : Nat) (h : Bool) : (s.setKey n h).stack = s.stack := rfl
@[simp] theorem State.setKey_dt (n : Nat) (h : Bool) : (s.setKey n h).dt = s.dt := rfl
@[simp] theorem State.setKey_st (n : Nat) (h : Bool) : (s.setKey n h).st = s.st := rfl
@[simp] theorem State.setKey_mem (n : Nat) (h : Bool) : (s.setKey n h).mem = s.mem := rfl
@[simp] theorem State.setKey_fb (n : Nat) (h : Bool) : (s.setKey n h).fb = s.fb := rfl
@[simp] theorem State.setKey_dirty (n : Nat) (h : Bool) : (s.setKey n h).dirty = s.dirty := rfl
@[simp] theorem State.setKey_keys (n : Nat) (h : Bool) : (s.setKey n h).keys = s.keys.setIfInBounds n h := rfl
@[simp] theorem State.setKey_halt (n : Nat) (h : Bool) : (s.setKey n h).halt = s.halt := rfl
@[simp] theorem State.setKey_draws (n : Nat) (h : Bool) : (s.setKey n h).draws = s.draws := rfl
@[simp] theorem State.setKey_reg (n : Nat) (h : Bool) (r : RegNum) : (s.setKey n h).reg r = s.reg r := rfl
@[simp] theorem State.setKey_pixel (n : Nat) (h : Bool) (qx : Fin 64) (qy : Fin 32) : (s.setKey n h).pixel qx qy = s.pixel qx qy := rfl

/-! ### State.clearDirty -/

@[simp] theorem State.clearDirty_v : s.clearDirty.v = s.v := rfl
@[simp] theorem State.clearDirty_i : s.clearDirty.i = s.i := rfl
@[simp] theorem State.clearDirty_pc : s.clearDirty.pc = s.pc := rfl
@[simp] theorem State.clearDirty_sp : s.clearDirty.sp = s.sp := rfl
@[simp] theorem State.clearDirty_stack : s.clearDirty.stack = s.stack := rfl
@[simp] theorem State.clearDirty_dt : s.clearDirty.dt = s.dt := rfl
@[simp] theorem State.clearDirty_st : s.clearDirty.st = s.st := rfl
@[simp] theorem State.clearDirty_mem : s.clearDirty.mem = s.mem := rfl
@[simp] theorem State.clearDirty_fb : s.clearDirty.fb = s.fb := rfl
@[simp] theorem State.clearDirty_dirty : s.clearDirty.dirty = false := rfl
@[simp] theorem State.clearDirty_keys : s.clearDirty.keys = s.keys := rfl
@[simp] theorem State.clearDirty_halt : s.clearDirty.halt = s.halt := rfl
@[simp] theorem State.clearDirty_draws : s.clearDirty.draws = s.draws := rfl
@[simp] theorem State.clearDirty_reg (r : RegNum) : s.clearDirty.reg r = s.reg r := rfl
@[simp] theorem State.clearDirty_pixel (qx : Fin 64) (qy : Fin 32) : s.clearDirty.pixel qx qy = s.pixel qx qy := rfl
@[simp] theorem State.clearDirty_keyHeld (k : Nibble) : s.clearDirty.keyHeld k = s.keyHeld k := rfl

/-! ### What the accessors see of the updates of their own field -/

theorem State.setReg_reg (x r : RegNum) (b : Byte) : (s.setReg x b).reg r = if r = x then b else s.reg r := by
  simp only [State.reg, State.setReg, Vector.getElem_set]
  by_cases h : r = x
  · simp [h]
  · have : ¬ x.toNat = r.toNat := fun e => h (BitVec.eq_of_toNat_eq e.symm)
    simp [h, this]

@[simp] theorem State.setReg_reg_self (x : RegNum) (b : Byte) : (s.setReg x b).reg x = b := by
  simp [State.setReg_reg]

theorem State.setReg_reg_of_ne {x r : RegNum} (h : r ≠ x) (b : Byte) : (s.setReg x b).reg r = s.reg r := by
  simp [State.setReg_reg, h]

theorem State.setFlag_reg (r : RegNum) (c : Bool) :
    (s.setFlag c).reg r = if r = VF then flagByte c else s.reg r := s.setReg_reg VF r (flagByte c)

theorem State.orFlag_reg (r : RegNum) (c : Bool) :
    (s.orFlag c).reg r = if r = VF then s.reg VF ||| flagByte c else s.reg r :=
  s.setReg_reg VF r (s.reg VF ||| flagByte c)

theorem State.setPixel_pixel (px qx : Fin 64) (py qy : Fin 32) (b : Bool) :
    (s.setPixel px py b).pixel qx qy = if qx = px ∧ qy = py then b else s.pixel qx qy := by
  simp only [State.pixel, State.setPixel, Fin.getElem_fin, Vector.getElem_set]
  by_cases hy : py.val = qy.val
  · have hy' : qy = py := Fin.ext hy.symm
    subst hy'
    simp only [Vector.getElem_set, if_true, and_true]
    by_cases hx : px.val = qx.val
    · have hx' : qx = px := Fin.ext hx.symm
      simp [hx']
    · have hx' : ¬ qx = px := fun e => hx (by rw [e])
      simp [hx, hx']
  · have hy' : ¬ qy = py := fun e => hy (by rw [e])
    simp [hy, hy']

@[simp] theorem State.clearFb_pixel (qx : Fin 64) (qy : Fin 32) : s.clearFb.pixel qx qy = false := by
  simp [State.pixel, State.clearFb]

theorem State.setKey_keyHeld (n : Nat) (h : Bool) (k : Nibble) :
    (s.setKey n h).keyHeld k = if k.toNat = n then h else s.keyHeld k := by
  simp only [State.keyHeld, State.setKey, Vector.getElem_setIfInBounds]
  by_cases hk : n = k.toNat
  · simp [hk]
  · simp [hk, Ne.symm hk]

/-! ### Stack -/

theorem State.push_eq_some {w : Word} (h : s.sp.toNat < 16) :
    s.push w = some { s with stack := s.stack.set s.sp.toNat w h, sp := s.sp + 1 } := by
  simp [State.push, h]

theorem State.push_eq_none {w : Word} (h : 16 ≤ s.sp.toNat) : s.push w = none := by
  simp [State.push, Nat.not_lt.mpr h]

theorem State.popPc_eq_some (h : s.sp.toNat ≤ 16) :
    s.popPc = some { s with sp := s.sp - 1, pc := s.stack[s.sp.toNat - 1]'(by omega) } := by
  have : s.sp.toNat - 1 < 16 := by omega
  simp [State.popPc, this]

theorem State.popPc_eq_none (h : 16 < s.sp.toNat) : s.popPc = none := by
  have : ¬ s.sp.toNat - 1 < 16 := by omega
  simp [State.popPc, this]

end Sys2Proof.Machine
end

