-- ==== Sys2Proof/Laws/Ops.lean ====
section
/-! SUPPORT. What the shared operations can do, said once: ranges, committing, register transfers, the key scan, drawing,
fetching. -/

namespace Sys2Proof.Machine

/-! ### Ranges and committing -/

theorem rangeExists_iff (base len : Nat) : rangeExists base len = true ↔ len = 0 ∨ base + len ≤ 0x1000 := by
  simp [rangeExists, Config.memSize]

theorem rangeExists_false_iff (base len : Nat) : rangeExists base len = false ↔ len ≠ 0 ∧ 0x1000 < base + len := by
  simp [rangeExists, Config.memSize]

/-- Inside memory the instruction's state is committed. -/
theorem commitIfInRange_in (s t : State) (w : Word) {base len : Nat} (h : len = 0 ∨ base + len ≤ 0x1000) :
    commitIfInRange s w base len t = .next t := by
  rw [commitIfInRange, if_pos ((rangeExists_iff base len).mpr h)]

/-- A range that leaves memory halts, and HALT is all that changes. -/
theorem commitIfInRange_out (s t : State) (w : Word) {base len : Nat} (h0 : len ≠ 0) (h : 0x1000 < base + len) :
    commitIfInRange s w base len t = .next (s.setHalt (some (outOfBoundsRecord s.pc (some w) base))) := by
  rw [commitIfInRange, if_neg (by rw [rangeExists_iff]; omega)]; rfl

/-- All that committing can do. -/
theorem commitIfInRange_cases {s t u : State} {w : Word} {base len : Nat} (h : commitIfInRange s w base len t = .next u) :
    ((len = 0 ∨ base + len ≤ 0x1000) ∧ u = t) ∨
      (len ≠ 0 ∧ 0x1000 < base + len ∧ u = s.setHalt (some (outOfBoundsRecord s.pc (some w) base))) := by
  by_cases hr : len = 0 ∨ base + len ≤ 0x1000
  · rw [commitIfInRange_in s t w hr] at h
    exact .inl ⟨hr, by injection h with h; exact h.symm⟩
  · rw [commitIfInRange_out s t w (by omega) (by omega)] at h
    exact .inr ⟨by omega, by omega, by injection h with h; exact h.symm⟩

/-- The record of an access that leaves memory names an address that does not exist. -/
theorem outOfBoundsRecord_addr (pc : Word) (w : Option Word) (base : Nat) :
    (outOfBoundsRecord pc w base).addr = some (max base 0x1000) := rfl

/-- The codes tell the reasons apart (R201). -/
theorem HaltReason.code_injective {r r' : HaltReason} (h : r.code = r'.code) : r = r' := by
  revert h; cases r <;> cases r' <;> decide

/-! ### Register transfers -/

theorem ofNat4_toNat {k : Nat} (h : k < 16) : (BitVec.ofNat 4 k).toNat = k := by
  simp [BitVec.toNat_ofNat]; omega

theorem ofNat4_toNat_self (r : Nibble) : BitVec.ofNat 4 r.toNat = r := by
  apply BitVec.eq_of_toNat_eq; simp

@[simp] theorem State.regBytes_length (s : State) (n : Nat) : (s.regBytes n).length = n := by
  simp [State.regBytes]

@[simp] theorem State.regBytes_getElem (s : State) (n k : Nat) (h : k < (s.regBytes n).length) :
    (s.regBytes n)[k] = s.reg (BitVec.ofNat 4 k) := by
  simp [State.regBytes]

/-- A block load: register `r` of the first `n` takes the byte at base + r, the others keep theirs. -/
theorem State.loadRegBytes_reg (s : State) (base n : Nat) (hn : n ≤ 16) (r : RegNum) :
    (s.loadRegBytes base n).reg r = if r.toNat < n then s.mem.read (base + r.toNat) else s.reg r := by
  induction n with
  | zero => simp [State.loadRegBytes]
  | succ k ih =>
    have hk : k < 16 := by omega
    rw [State.loadRegBytes, State.setReg_reg, ih (by omega)]
    by_cases h : r = BitVec.ofNat 4 k
    · have : r.toNat = k := by rw [h, ofNat4_toNat hk]
      simp [h, ofNat4_toNat hk]
    · have : r.toNat ≠ k := fun e => h (by rw [← e, ofNat4_toNat_self])
      by_cases h1 : r.toNat < k
      · have : r.toNat < k + 1 := by omega
        simp [h, h1, this]
      · have : ¬ r.toNat < k + 1 := by omega
        simp [h, h1, this]

/-- A block load changes general registers only. -/
theorem State.loadRegBytes_eq (s : State) (base n : Nat) :
    s.loadRegBytes base n = { s with v := (s.loadRegBytes base n).v } := by
  induction n with
  | zero => rfl
  | succ k ih => rw [State.loadRegBytes, ih]; rfl

/-! ### The key scan (R183) -/

theorem scan_prefix (s : State) (n : Nat) (hn : n ≤ 16) :
    let f := fun (found : Option Nibble) (k : Nat) =>
      if s.keyHeld (BitVec.ofNat 4 k) then some (BitVec.ofNat 4 k) else found
    ((List.range n).foldl f none = none ∧ ∀ k : Nibble, k.toNat < n → s.keyHeld k = false) ∨
      ∃ k : Nibble, (List.range n).foldl f none = some k ∧ k.toNat < n ∧ s.keyHeld k = true ∧
        ∀ j : Nibble, k.toNat < j.toNat → j.toNat < n → s.keyHeld j = false := by
  intro f
  induction n with
  | zero => exact .inl ⟨rfl, by simp⟩
  | succ m ih =>
    have hm : m < 16 := by omega
    have hlt : ∀ j : Nibble, j.toNat < m + 1 → j.toNat < m ∨ j = BitVec.ofNat 4 m := fun j hj => by
      by_cases h : j.toNat < m
      · exact .inl h
      · exact .inr (by rw [← ofNat4_toNat_self j]; congr 1; omega)
    rw [List.range_succ, List.foldl_append]
    by_cases hh : s.keyHeld (BitVec.ofNat 4 m) = true
    · refine .inr ⟨BitVec.ofNat 4 m, ?_, ?_, hh, fun j h1 h2 => ?_⟩
      · simp [f, hh]
      · rw [ofNat4_toNat hm]; omega
      · rw [ofNat4_toNat hm] at h1; omega
    · rcases ih (by omega) with ⟨h1, h2⟩ | ⟨k, h1, h2, h3, h4⟩
      · refine .inl ⟨by simp [f, hh] at h1 ⊢; exact h1, fun k hk => ?_⟩
        rcases hlt k hk with h | h
        · exact h2 k h
        · rw [h]; simpa using hh
      · refine .inr ⟨k, by simp [f, hh] at h1 ⊢; exact h1, by omega, h3, fun j hj1 hj2 => ?_⟩
        rcases hlt j hj2 with h | h
        · exact h4 j hj1 h
        · rw [h]; simpa using hh

/-- All that the scan can answer: nothing when no key is held, else the highest held key. -/
theorem State.scanKeys_cases (s : State) :
    (s.scanKeys = none ∧ ∀ k : Nibble, s.keyHeld k = false) ∨
      ∃ k : Nibble, s.scanKeys = some k ∧ s.keyHeld k = true ∧
        ∀ j : Nibble, k.toNat < j.toNat → s.keyHeld j = false := by
  rcases scan_prefix s 16 le_rfl with ⟨h1, h2⟩ | ⟨k, h1, _, h3, h4⟩
  · exact .inl ⟨h1, fun k => h2 k k.isLt⟩
  · exact .inr ⟨k, h1, h3, fun j hj => h4 j hj j.isLt⟩

/-! ### Drawing (R162) -/

/-- One pixel changes VF and one cell of the framebuffer only. -/
theorem drawPixel_eq (x y : RegNum) (b : Byte) (r : Nat) (s : State) (c : Nat) :
    drawPixel x y b r s c =
      { s with v := (drawPixel x y b r s c).v, fb := (drawPixel x y b r s c).fb } := rfl

/-- A register other than VF keeps its value while a pixel is drawn. -/
theorem drawPixel_reg_of_ne (x y : RegNum) (b : Byte) (r : Nat) (s : State) (c : Nat) {z : RegNum} (h : z ≠ VF) :
    (drawPixel x y b r s c).reg z = s.reg z := by
  have : (drawPixel x y b r s c).reg z =
      (s.orFlag (spriteBit b c && s.pixel (columnOf (s.reg x) c) (rowOf (s.reg y) r))).reg z := rfl
  rw [this, State.orFlag_reg, if_neg h]

/-- What a fold of steps that change only `v` and `fb` changes. -/
theorem foldl_keeps {α : Type} (f : State → α → State) (l : List α) (s : State)
    (h : ∀ s a, f s a = { s with v := (f s a).v, fb := (f s a).fb }) :
    l.foldl f s = { s with v := (l.foldl f s).v, fb := (l.foldl f s).fb } := by
  induction l generalizing s with
  | nil => rfl
  | cons a l ih =>
    rw [List.foldl_cons, ih, h s a]

/-- A register that every step of a fold keeps. -/
theorem foldl_reg {α : Type} (f : State → α → State) (l : List α) (s : State) (z : RegNum)
    (h : ∀ s a, (f s a).reg z = s.reg z) : (l.foldl f s).reg z = s.reg z := by
  induction l generalizing s with
  | nil => rfl
  | cons a l ih => rw [List.foldl_cons, ih, h]

theorem drawRow_eq (x y : RegNum) (s : State) (r : Nat) :
    drawRow x y s r = { s with v := (drawRow x y s r).v, fb := (drawRow x y s r).fb } :=
  foldl_keeps _ _ _ fun s c => drawPixel_eq x y _ r s c

/-- Drawing a sprite changes VF and the framebuffer only: nothing outside `v` and `fb`. -/
theorem drawSprite_eq (x y : RegNum) (n : Nat) (s : State) :
    drawSprite x y n s = { s with v := (drawSprite x y n s).v, fb := (drawSprite x y n s).fb } :=
  foldl_keeps _ _ _ fun s r => drawRow_eq x y s r

/-- Drawing a sprite keeps every register but VF. -/
theorem drawSprite_reg_of_ne (x y : RegNum) (n : Nat) (s : State) {z : RegNum} (h : z ≠ VF) :
    (drawSprite x y n s).reg z = s.reg z :=
  foldl_reg _ _ _ _ fun s r => foldl_reg _ _ s _ fun s c => drawPixel_reg_of_ne x y _ r s c h

/-! ### Flags and key indices -/

theorem flagByte_toNat (c : Bool) : (flagByte c).toNat = if c then 1 else 0 := by cases c <;> rfl

/-- A byte up to 15 names its key. -/
theorem keyOf_eq_some {b : Byte} {k : Nibble} (h : b.toNat = k.toNat) : keyOf b = some k := by
  have hk : k.toNat < 16 := k.isLt
  have : b.toNat ≤ 0xF := by omega
  rw [keyOf, if_pos this]
  congr 1
  apply BitVec.eq_of_toNat_eq
  rw [BitVec.toNat_setWidth, h]
  exact Nat.mod_eq_of_lt hk

/-- A byte above 15 names none. -/
theorem keyOf_eq_none {b : Byte} (h : 0xF < b.toNat) : keyOf b = none := by
  rw [keyOf, if_neg (by omega)]

/-! ### Fetching -/

theorem State.fetch_eq_some (s : State) (h : s.pc.toNat ≤ 0xFFE) :
    s.fetch = some (wordOfBytes (s.mem.read s.pc.toNat) (s.mem.read (s.pc.toNat + 1))) := by
  rw [State.fetch, if_pos ((rangeExists_iff _ _).mpr (by omega))]

theorem State.fetch_eq_none (s : State) (h : 0xFFF ≤ s.pc.toNat) : s.fetch = none := by
  rw [State.fetch, if_neg (by rw [rangeExists_iff]; omega)]

end Sys2Proof.Machine
end

