-- ==== Sys2Proof/Laws/Exec.lean ====
section
/-! SUPPORT. All that the meanings with more than one outcome can do, said once each, so that a proof about every instruction
does not unfold them. -/

namespace Sys2Proof.Machine

variable {s t : State}

/-- A return halts with an empty stack, else pops. -/
theorem execRet_cases (h : execRet s = .next t) :
    (s.sp = 0x00#8 ∧ t = s.setHalt (some (underflowRecord s.pc (encode .ret)))) ∨
      ∃ hk : s.sp.toNat - 1 < 16, s.sp ≠ 0x00#8 ∧
        t = { s with sp := s.sp - 1, pc := s.stack[s.sp.toNat - 1]'hk } := by
  by_cases h0 : s.sp = 0x00#8
  · rw [execRet, if_pos h0] at h
    injection h with h
    exact .inl ⟨h0, h.symm⟩
  · rw [execRet, if_neg h0] at h
    by_cases hk : s.sp.toNat - 1 < 16
    · have e : s.advance.popPc = some { s with sp := s.sp - 1, pc := s.stack[s.sp.toNat - 1]'hk } := by
        simp [State.popPc, State.advance, hk]
      rw [e] at h
      injection h with h
      exact .inr ⟨hk, h0, h.symm⟩
    · have e : s.advance.popPc = none := by simp [State.popPc, State.advance, hk]
      rw [e] at h
      exact absurd h (by simp)

/-- A call halts with a full stack, else pushes and jumps. -/
theorem execCall_cases {nnn : Addr12} (h : execCall nnn s = .next t) :
    (s.sp = 0x10#8 ∧ t = s.setHalt (some (overflowRecord s.pc (encode (.call nnn))))) ∨
      ∃ hk : s.sp.toNat < 16,
        t = { s with stack := s.stack.set s.sp.toNat (s.pc + 2) hk, sp := s.sp + 1, pc := addressOf nnn } := by
  by_cases h0 : s.sp = 0x10#8
  · rw [execCall, if_pos h0] at h
    injection h with h
    exact .inl ⟨h0, h.symm⟩
  · rw [execCall, if_neg h0] at h
    by_cases hk : s.sp.toNat < 16
    · rw [State.push_eq_some s.advance hk] at h
      injection h with h
      exact .inr ⟨hk, h.symm⟩
    · rw [State.push_eq_none s.advance (by simpa using hk)] at h
      exact absurd h (by simp)

/-- SKP skips on its key, or halts above 15. -/
theorem execSkp_cases {x : RegNum} (h : execSkp x s = .next t) :
    (∃ k, keyOf (s.reg x) = some k ∧ t = s.advance.skipIf (s.keyHeld k)) ∨
      (0xF < (s.reg x).toNat ∧ t = s.setHalt (some (keyRecord s.pc (encode (.skp x)) (s.reg x)))) := by
  by_cases hx : 0xF < (s.reg x).toNat
  · rw [execSkp, keyOf_eq_none hx] at h
    injection h with h
    exact .inr ⟨hx, h.symm⟩
  · have e : keyOf (s.reg x) = some ((s.reg x).setWidth 4) := by rw [keyOf, if_pos (by omega)]
    rw [execSkp, e] at h
    injection h with h
    exact .inl ⟨_, e, h.symm⟩

/-- SKNP skips on its key, or halts above 15. -/
theorem execSknp_cases {x : RegNum} (h : execSknp x s = .next t) :
    (∃ k, keyOf (s.reg x) = some k ∧ t = s.advance.skipIf (!s.keyHeld k)) ∨
      (0xF < (s.reg x).toNat ∧ t = s.setHalt (some (keyRecord s.pc (encode (.sknp x)) (s.reg x)))) := by
  by_cases hx : 0xF < (s.reg x).toNat
  · rw [execSknp, keyOf_eq_none hx] at h
    injection h with h
    exact .inr ⟨hx, h.symm⟩
  · have e : keyOf (s.reg x) = some ((s.reg x).setWidth 4) := by rw [keyOf, if_pos (by omega)]
    rw [execSknp, e] at h
    injection h with h
    exact .inl ⟨_, e, h.symm⟩

/-- The key wait changes nothing with no key held, else takes the highest and goes on. -/
theorem execLdVxK_cases {x : RegNum} (h : execLdVxK x s = .next t) :
    ((∀ k, s.keyHeld k = false) ∧ t = s) ∨
      ∃ k, s.keyHeld k = true ∧ (∀ j : Nibble, k.toNat < j.toNat → s.keyHeld j = false) ∧
        t = s.advance.setReg x (k.setWidth 8) := by
  have back : s.advance.pc - 2 = s.pc := by simp
  rcases State.scanKeys_cases s with ⟨h1, h2⟩ | ⟨k, h1, h2, h3⟩
  · rw [execLdVxK, h1, back] at h
    injection h with h
    exact .inl ⟨h2, h.symm⟩
  · rw [execLdVxK, h1, back] at h
    injection h with h
    exact .inr ⟨k, h2, h3, h.symm⟩

/-- What a draw leaves outside VF and the screen. -/
theorem drawn_eq (x y : RegNum) (n : Nat) (s : State) :
    (drawSprite x y n (s.advance.setReg VF 0x00#8)).markDirty =
      { s with
        pc := s.pc + 2
        dirty := true
        v := (drawSprite x y n (s.advance.setReg VF 0x00#8)).v
        fb := (drawSprite x y n (s.advance.setReg VF 0x00#8)).fb } := by
  conv_lhs => rw [drawSprite_eq]
  rfl

/-- What a block load leaves outside the general registers. -/
theorem loaded_eq (s : State) (base n : Nat) :
    s.advance.loadRegBytes base n = { s with pc := s.pc + 2, v := (s.advance.loadRegBytes base n).v } := by
  conv_lhs => rw [State.loadRegBytes_eq]
  rfl

end Sys2Proof.Machine
end

