-- ==== Sys2Proof/Laws/PerInstr.lean ====
section
/-! SUPPORT. The per-instruction family TableRow: the word of a well-formed instruction matches the instruction's own row
of the opcode table and no other (spec/30_encoding.md R75, R76), and the catch-all's words match none (R77). It is about
the instruction as syntax, and says nothing of the decoder. -/

namespace Sys2Proof.Laws.TableRow

/-- The mnemonics of the patterns an instruction's word is to match: its own, and none for the catch-all. -/
def ownRows : Instr → List String
  | .unhandled _ => []
  | .cls => ["CLS"]
  | .ret => ["RET"]
  | .jp _ => ["JP_nnn"]
  | .call _ => ["CALL_nnn"]
  | .seImm _ _ => ["SE_Vx__kk"]
  | .sneImm _ _ => ["SNE_Vx__kk"]
  | .seReg _ _ => ["SE_Vx__Vy"]
  | .ldImm _ _ => ["LD_Vx__kk"]
  | .addImm _ _ => ["ADD_Vx__kk"]
  | .ldReg _ _ => ["LD_Vx__Vy"]
  | .orReg _ _ => ["OR_Vx__Vy"]
  | .andReg _ _ => ["AND_Vx__Vy"]
  | .xorReg _ _ => ["XOR_Vx__Vy"]
  | .addReg _ _ => ["ADD_Vx__Vy"]
  | .subReg _ _ => ["SUB_Vx__Vy"]
  | .shr _ _ => ["SHR_Vx"]
  | .subnReg _ _ => ["SUBN_Vx__Vy"]
  | .shl _ _ => ["SHL_Vx"]
  | .sneReg _ _ => ["SNE_Vx__Vy"]
  | .ldI _ => ["LD_I__nnn"]
  | .jpV0 _ => ["JP_V0__nnn"]
  | .rnd _ _ => ["RND_Vx__kk"]
  | .drw _ _ _ => ["DRW_Vx__Vy__n"]
  | .skp _ => ["SKP_Vx"]
  | .sknp _ => ["SKNP_Vx"]
  | .ldVxDt _ => ["LD_Vx__DT"]
  | .ldVxK _ => ["LD_Vx__K"]
  | .ldDtVx _ => ["LD_DT__Vx"]
  | .ldStVx _ => ["LD_ST__Vx"]
  | .addI _ => ["ADD_I__Vx"]
  | .ldF _ => ["LD_F__Vx"]
  | .bcd _ => ["BCD_Vx"]
  | .storeRegs _ => ["LD__I___Vx"]
  | .loadRegs _ => ["LD_Vx___I"]

/-- The word of `i` matches exactly its own row. -/
def Statement (i : Instr) : Prop := i.wellFormed = true → matchingMnemonics (encode i) = ownRows i

theorem cls : Statement .cls := by
  intro _; decide
theorem ret : Statement .ret := by
  intro _; decide
theorem jp (nnn : Addr12) : Statement (.jp nnn) := by
  intro _; simp [matchingMnemonics, opcodePatterns, patternMatches, digitAllows, encode, ownRows]
theorem call (nnn : Addr12) : Statement (.call nnn) := by
  intro _; simp [matchingMnemonics, opcodePatterns, patternMatches, digitAllows, encode, ownRows]
theorem seImm (x : RegNum) (kk : Byte) : Statement (.seImm x kk) := by
  intro _; simp [matchingMnemonics, opcodePatterns, patternMatches, digitAllows, encode, ownRows]
theorem sneImm (x : RegNum) (kk : Byte) : Statement (.sneImm x kk) := by
  intro _; simp [matchingMnemonics, opcodePatterns, patternMatches, digitAllows, encode, ownRows]
theorem seReg (x y : RegNum) : Statement (.seReg x y) := by
  intro _; simp [matchingMnemonics, opcodePatterns, patternMatches, digitAllows, encode, ownRows]
theorem ldImm (x : RegNum) (kk : Byte) : Statement (.ldImm x kk) := by
  intro _; simp [matchingMnemonics, opcodePatterns, patternMatches, digitAllows, encode, ownRows]
theorem addImm (x : RegNum) (kk : Byte) : Statement (.addImm x kk) := by
  intro _; simp [matchingMnemonics, opcodePatterns, patternMatches, digitAllows, encode, ownRows]
theorem ldReg (x y : RegNum) : Statement (.ldReg x y) := by
  intro _; simp [matchingMnemonics, opcodePatterns, patternMatches, digitAllows, encode, ownRows]
theorem orReg (x y : RegNum) : Statement (.orReg x y) := by
  intro _; simp [matchingMnemonics, opcodePatterns, patternMatches, digitAllows, encode, ownRows]
theorem andReg (x y : RegNum) : Statement (.andReg x y) := by
  intro _; simp [matchingMnemonics, opcodePatterns, patternMatches, digitAllows, encode, ownRows]
theorem xorReg (x y : RegNum) : Statement (.xorReg x y) := by
  intro _; simp [matchingMnemonics, opcodePatterns, patternMatches, digitAllows, encode, ownRows]
theorem addReg (x y : RegNum) : Statement (.addReg x y) := by
  intro _; simp [matchingMnemonics, opcodePatterns, patternMatches, digitAllows, encode, ownRows]
theorem subReg (x y : RegNum) : Statement (.subReg x y) := by
  intro _; simp [matchingMnemonics, opcodePatterns, patternMatches, digitAllows, encode, ownRows]
theorem shr (x y : RegNum) : Statement (.shr x y) := by
  intro _; simp [matchingMnemonics, opcodePatterns, patternMatches, digitAllows, encode, ownRows]
theorem subnReg (x y : RegNum) : Statement (.subnReg x y) := by
  intro _; simp [matchingMnemonics, opcodePatterns, patternMatches, digitAllows, encode, ownRows]
theorem shl (x y : RegNum) : Statement (.shl x y) := by
  intro _; simp [matchingMnemonics, opcodePatterns, patternMatches, digitAllows, encode, ownRows]
theorem sneReg (x y : RegNum) : Statement (.sneReg x y) := by
  intro _; simp [matchingMnemonics, opcodePatterns, patternMatches, digitAllows, encode, ownRows]
theorem ldI (nnn : Addr12) : Statement (.ldI nnn) := by
  intro _; simp [matchingMnemonics, opcodePatterns, patternMatches, digitAllows, encode, ownRows]
theorem jpV0 (nnn : Addr12) : Statement (.jpV0 nnn) := by
  intro _; simp [matchingMnemonics, opcodePatterns, patternMatches, digitAllows, encode, ownRows]
theorem rnd (x : RegNum) (kk : Byte) : Statement (.rnd x kk) := by
  intro _; simp [matchingMnemonics, opcodePatterns, patternMatches, digitAllows, encode, ownRows]
theorem drw (x y : RegNum) (n : Nibble) : Statement (.drw x y n) := by
  intro _; simp [matchingMnemonics, opcodePatterns, patternMatches, digitAllows, encode, ownRows]
theorem skp (x : RegNum) : Statement (.skp x) := by
  intro _; simp [matchingMnemonics, opcodePatterns, patternMatches, digitAllows, encode, ownRows]
theorem sknp (x : RegNum) : Statement (.sknp x) := by
  intro _; simp [matchingMnemonics, opcodePatterns, patternMatches, digitAllows, encode, ownRows]
theorem ldVxDt (x : RegNum) : Statement (.ldVxDt x) := by
  intro _; simp [matchingMnemonics, opcodePatterns, patternMatches, digitAllows, encode, ownRows]
theorem ldVxK (x : RegNum) : Statement (.ldVxK x) := by
  intro _; simp [matchingMnemonics, opcodePatterns, patternMatches, digitAllows, encode, ownRows]
theorem ldDtVx (x : RegNum) : Statement (.ldDtVx x) := by
  intro _; simp [matchingMnemonics, opcodePatterns, patternMatches, digitAllows, encode, ownRows]
theorem ldStVx (x : RegNum) : Statement (.ldStVx x) := by
  intro _; simp [matchingMnemonics, opcodePatterns, patternMatches, digitAllows, encode, ownRows]
theorem addI (x : RegNum) : Statement (.addI x) := by
  intro _; simp [matchingMnemonics, opcodePatterns, patternMatches, digitAllows, encode, ownRows]
theorem ldF (x : RegNum) : Statement (.ldF x) := by
  intro _; simp [matchingMnemonics, opcodePatterns, patternMatches, digitAllows, encode, ownRows]
theorem bcd (x : RegNum) : Statement (.bcd x) := by
  intro _; simp [matchingMnemonics, opcodePatterns, patternMatches, digitAllows, encode, ownRows]
theorem storeRegs (x : RegNum) : Statement (.storeRegs x) := by
  intro _; simp [matchingMnemonics, opcodePatterns, patternMatches, digitAllows, encode, ownRows]
theorem loadRegs (x : RegNum) : Statement (.loadRegs x) := by
  intro _; simp [matchingMnemonics, opcodePatterns, patternMatches, digitAllows, encode, ownRows]
theorem unhandled (w : Word) : Statement (.unhandled w) := by
  intro h
  simp only [Instr.wellFormed, recognised, Bool.not_eq_true', List.any_eq_false] at h
  simp only [matchingMnemonics, encode, ownRows, List.map_eq_nil_iff, List.filter_eq_nil_iff]
  exact h

end Sys2Proof.Laws.TableRow
end

