-- ==== Sys2Proof/Laws/Safety.lean ====
section
/-! SUPPORT. The frame, part by part. -/

namespace Sys2Proof.Machine

/-- The frame says one thing for each part of the state. -/
theorem keepsAllBut_iff (cs : List Component) (s t : State) : KeepsAllBut cs s t ↔
    (Component.general ∉ cs → ∀ r : RegNum, t.reg r = s.reg r) ∧
    (Component.index ∉ cs → t.i = s.i) ∧
    (Component.stackPointer ∉ cs → t.sp = s.sp) ∧
    (Component.stackSlots ∉ cs → ∀ k : Fin 16, t.stack[k] = s.stack[k]) ∧
    (Component.delayTimer ∉ cs → t.dt = s.dt) ∧
    (Component.soundTimer ∉ cs → t.st = s.st) ∧
    (Component.memory ∉ cs → ∀ a : Nat, t.mem.read a = s.mem.read a) ∧
    (Component.framebuffer ∉ cs → ∀ px py, t.pixel px py = s.pixel px py) ∧
    (Component.dirtyFlag ∉ cs → t.dirty = s.dirty) ∧
    (Component.keypad ∉ cs → ∀ k : Nibble, t.keyHeld k = s.keyHeld k) ∧
    (Component.haltRegister ∉ cs → t.halt = s.halt) ∧
    (Component.drawCount ∉ cs → t.draws = s.draws) := by
  constructor
  · intro h
    exact ⟨h .general, h .index, h .stackPointer, h .stackSlots, h .delayTimer, h .soundTimer, h .memory,
      h .framebuffer, h .dirtyFlag, h .keypad, h .haltRegister, h .drawCount⟩
  · rintro ⟨h1, h2, h3, h4, h5, h6, h7, h8, h9, h10, h11, h12⟩ c hc
    cases c
    · exact h1 hc
    · exact h2 hc
    · exact h3 hc
    · exact h4 hc
    · exact h5 hc
    · exact h6 hc
    · exact h7 hc
    · exact h8 hc
    · exact h9 hc
    · exact h10 hc
    · exact h11 hc
    · exact h12 hc

end Sys2Proof.Machine
end

