-- ==== Sys2Proof/Tests/Slice0.lean ====
section
/-! SUPPORT. The model's own tests: the well-formedness smoke, decoding words written out from the spec's encodings, one step
of each instruction on a small state (expected values from spec/95_test_vectors.md, whose ids stand in the comments), the
host's operations, and for every statement with hypotheses a state and operands that meet them. -/

namespace Sys2Proof.Tests

open Sys2Proof.Machine

/-! ### Helpers -/

/-- One step from reset after `f`, with the word `w` at PC; `g` of the state it leaves. -/
def run1 {α : Type} (w : Word) (f : State → State) (g : State → α) : Option α :=
  match step ((f State.reset).withFetchWord 16 w.toNat) with
  | .next t => some (g t)
  | .fault _ => none
  | .refused _ => none

/-- `g` of the state that an outcome holds. -/
def after {α : Type} (r : Result) (g : State → α) : Option α :=
  match r with
  | .next t => some (g t)
  | .fault _ => none
  | .refused _ => none

/-- What a host operation leaves, seen by `g`, and returns. -/
def afterOp {α : Type} (r : HostResult) (g : State → α) : Option (α × Response) :=
  match r with
  | .next (t, a) => some (g t, a)
  | .fault _ => none
  | .refused _ => none

def withSp (n : Byte) (s : State) : State := { s with sp := n }
def withPc (n : Word) (s : State) : State := { s with pc := n }
def notDirty (s : State) : State := { s with dirty := false }
def withSlot (k : Nat) (w : Word) (s : State) : State := { s with stack := s.stack.setIfInBounds k w }

/-! ### Well-formedness smoke -/

theorem test_wf_refuses_recognised_word : (Instr.unhandled 0x1234#16).wellFormed = false := by decide
theorem test_wf_refuses_cls_as_unhandled : (Instr.unhandled 0x00E0#16).wellFormed = false := by decide
theorem test_wf_accepts : (Instr.unhandled 0x8008#16).wellFormed = true ∧
    (Instr.drw 0xF#4 0xF#4 0xF#4).wellFormed = true := by decide

/-! ### Decoding words written out from the encoding lines of the rules (R74) -/

theorem test_decode_flow :
    decode 0b0000000011101110#16 = .ret ∧
    decode 0b0001101010111100#16 = .jp 0xABC#12 ∧
    decode 0b0010001000010000#16 = .call 0x210#12 ∧
    decode 0b0011000100000101#16 = .seImm 0x1#4 0x05#8 ∧
    decode 0b0100000100000101#16 = .sneImm 0x1#4 0x05#8 ∧
    decode 0b0101000100100000#16 = .seReg 0x1#4 0x2#4 ∧
    decode 0b1001000100100000#16 = .sneReg 0x1#4 0x2#4 ∧
    decode 0b1011001100000000#16 = .jpV0 0x300#12 := by decide

theorem test_decode_loads_and_adds :
    decode 0b0110101001000010#16 = .ldImm 0xA#4 0x42#8 ∧
    decode 0b0111000111110000#16 = .addImm 0x1#4 0xF0#8 ∧
    decode 0b1100000100001111#16 = .rnd 0x1#4 0x0F#8 := by decide

theorem test_decode_alu :
    decode 0b1000000100100000#16 = .ldReg 0x1#4 0x2#4 ∧
    decode 0b1000000100100001#16 = .orReg 0x1#4 0x2#4 ∧
    decode 0b1000000100100010#16 = .andReg 0x1#4 0x2#4 ∧
    decode 0b1000000100100011#16 = .xorReg 0x1#4 0x2#4 ∧
    decode 0b1000111100010100#16 = .addReg 0xF#4 0x1#4 ∧
    decode 0b1000000111110101#16 = .subReg 0x1#4 0xF#4 ∧
    decode 0b1000000100100110#16 = .shr 0x1#4 0x2#4 ∧
    decode 0b1000000100100111#16 = .subnReg 0x1#4 0x2#4 ∧
    decode 0b1000000100101110#16 = .shl 0x1#4 0x2#4 := by decide

theorem test_decode_index_memory :
    decode 0b1010111111111111#16 = .ldI 0xFFF#12 ∧
    decode 0b1111000100011110#16 = .addI 0x1#4 ∧
    decode 0b1111000100101001#16 = .ldF 0x1#4 ∧
    decode 0b1111000100110011#16 = .bcd 0x1#4 ∧
    decode 0b1111001101010101#16 = .storeRegs 0x3#4 ∧
    decode 0b1111111101100101#16 = .loadRegs 0xF#4 := by decide

theorem test_decode_display :
    decode 0b0000000011100000#16 = .cls ∧
    decode 0b1101000100100011#16 = .drw 0x1#4 0x2#4 0x3#4 := by decide

theorem test_decode_keypad_timers :
    decode 0b1110000110011110#16 = .skp 0x1#4 ∧
    decode 0b1110000110100001#16 = .sknp 0x1#4 ∧
    decode 0b1111001000001010#16 = .ldVxK 0x2#4 ∧
    decode 0b1111000100000111#16 = .ldVxDt 0x1#4 ∧
    decode 0b1111000100010101#16 = .ldDtVx 0x1#4 ∧
    decode 0b1111000100011000#16 = .ldStVx 0x1#4 := by decide

/-- TS1, TS4, TS5, TS6: one fixed digit off is no instruction. -/
theorem test_decode_unhandled :
    decode 0x0123#16 = .unhandled 0x0123#16 ∧ decode 0x8008#16 = .unhandled 0x8008#16 ∧
    decode 0x5121#16 = .unhandled 0x5121#16 ∧ decode 0xE19F#16 = .unhandled 0xE19F#16 ∧
    decode 0xF166#16 = .unhandled 0xF166#16 := by decide

theorem test_decodeTableWord : decodeTableWord 16 0x8124 = some (.addReg 0x1#4 0x2#4) ∧
    decodeTableWord 16 0x00E0 = some .cls := by decide

/-! ### One step of each instruction -/

/-- L1-10 -/
theorem test_cls : run1 0x00E0#16 (fun s => notDirty (s.setPixel 5 5 true))
    (fun t => (t.pixel 5 5, t.dirty, t.pc)) = some (false, true, 0x0202#16) := by decide +kernel
/-- TF7 -/
theorem test_ret : run1 0x00EE#16 (fun s => withSlot 1 0x030C#16 (withSlot 0 0x020A#16 (withSp 0x02#8 s)))
    (fun t => (t.sp, t.pc, t.stack[1])) = some (0x01#8, 0x030C#16, 0x030C#16) := by decide
/-- TF6 -/
theorem test_ret_empty : run1 0x00EE#16 id
    (fun t => (t.pc, t.sp, t.halt)) =
    some (0x0200#16, 0x00#8, some ⟨.stackUnderflow, 0x0200#16, some 0x00EE#16, none, none⟩) := by decide
/-- TF1 -/
theorem test_jp : run1 0x1ABC#16 id (fun t => t.pc) = some 0x0ABC#16 := by decide
/-- TF3 -/
theorem test_call : run1 0x2210#16 (fun s => withPc 0x0204#16 s)
    (fun t => (t.stack[0], t.sp, t.pc)) = some (0x0206#16, 0x01#8, 0x0210#16) := by decide
/-- TF4 -/
theorem test_call_full : run1 0x2300#16 (fun s => withSp 0x10#8 s)
    (fun t => (t.sp, t.pc, t.halt)) =
    some (0x10#8, 0x0200#16, some ⟨.stackOverflow, 0x0200#16, some 0x2300#16, none, none⟩) := by decide
/-- TF8 -/
theorem test_seImm_skips : run1 0x3105#16 (fun s => s.setReg 0x1#4 0x05#8)
    (fun t => t.pc) = some 0x0204#16 := by decide
/-- TF9 -/
theorem test_seImm_stays : run1 0x3105#16 (fun s => s.setReg 0x1#4 0x06#8)
    (fun t => t.pc) = some 0x0202#16 := by decide
/-- TF10 -/
theorem test_sneImm_stays : run1 0x4105#16 (fun s => s.setReg 0x1#4 0x05#8)
    (fun t => t.pc) = some 0x0202#16 := by decide
/-- TF11 -/
theorem test_sneImm_skips : run1 0x4105#16 (fun s => s.setReg 0x1#4 0x06#8)
    (fun t => t.pc) = some 0x0204#16 := by decide
/-- TF12 -/
theorem test_seReg_skips : run1 0x5120#16 (fun s => (s.setReg 0x1#4 0x33#8).setReg 0x2#4 0x33#8)
    (fun t => t.pc) = some 0x0204#16 := by decide
/-- TF13 -/
theorem test_seReg_stays : run1 0x5120#16 (fun s => (s.setReg 0x1#4 0x33#8).setReg 0x2#4 0x34#8)
    (fun t => t.pc) = some 0x0202#16 := by decide
/-- TF15 -/
theorem test_sneReg_skips : run1 0x9120#16 (fun s => (s.setReg 0x1#4 0x01#8).setReg 0x2#4 0x02#8)
    (fun t => t.pc) = some 0x0204#16 := by decide
/-- TF16 -/
theorem test_sneReg_stays : run1 0x9110#16 (fun s => s.setReg 0x1#4 0x07#8)
    (fun t => t.pc) = some 0x0202#16 := by decide
/-- TF19 -/
theorem test_jpV0 : run1 0xB300#16 (fun s => (s.setReg 0x0#4 0x01#8).setReg 0x1#4 0xFF#8)
    (fun t => t.pc) = some 0x0301#16 := by decide
/-- TF18 -/
theorem test_jpV0_top : run1 0xBFFF#16 (fun s => s.setReg 0x0#4 0xFF#8) (fun t => t.pc) = some 0x10FE#16 := by decide
/-- TS1, TS5 -/
theorem test_unhandled : run1 0x5121#16 (fun s => (s.setReg 0x1#4 0x05#8).setReg 0x2#4 0x05#8)
    (fun t => (t.pc, t.halt)) = some (0x0202#16, none) := by decide
/-- L1-1 -/
theorem test_ldImm : run1 0x6F07#16 id (fun t => (t.reg 0xF#4, t.pc)) = some (0x07#8, 0x0202#16) := by decide
/-- TA2 -/
theorem test_addImm : run1 0x71F0#16 (fun s => (s.setReg 0x1#4 0x10#8).setReg 0xF#4 0x01#8)
    (fun t => (t.reg 0x1#4, t.reg 0xF#4)) = some (0x00#8, 0x01#8) := by decide
/-- TA3 -/
theorem test_ldReg : run1 0x8120#16 (fun s => s.setReg 0x2#4 0x5A#8)
    (fun t => (t.reg 0x1#4, t.reg 0x2#4)) = some (0x5A#8, 0x5A#8) := by decide
/-- TA4 -/
theorem test_orReg : run1 0x8121#16 (fun s => ((s.setReg 0x1#4 0xF0#8).setReg 0x2#4 0x0F#8).setReg 0xF#4 0x07#8)
    (fun t => (t.reg 0x1#4, t.reg 0xF#4)) = some (0xFF#8, 0x07#8) := by decide
/-- TA5 -/
theorem test_andReg : run1 0x8122#16 (fun s => (s.setReg 0x1#4 0xF0#8).setReg 0x2#4 0x3C#8)
    (fun t => t.reg 0x1#4) = some 0x30#8 := by decide
/-- TA6 -/
theorem test_xorReg : run1 0x8123#16 (fun s => (s.setReg 0x1#4 0xF0#8).setReg 0x2#4 0x3C#8)
    (fun t => t.reg 0x1#4) = some 0xCC#8 := by decide
/-- TA10 -/
theorem test_addReg : run1 0x8124#16 (fun s => (s.setReg 0x1#4 0x80#8).setReg 0x2#4 0x80#8)
    (fun t => (t.reg 0x1#4, t.reg 0xF#4)) = some (0x00#8, 0x01#8) := by decide
/-- TA12 -/
theorem test_addReg_vf : run1 0x8F14#16 (fun s => (s.setReg 0xF#4 0x10#8).setReg 0x1#4 0xF5#8)
    (fun t => t.reg 0xF#4) = some 0x01#8 := by decide
/-- TA15 -/
theorem test_subReg : run1 0x8125#16 (fun s => (s.setReg 0x1#4 0x03#8).setReg 0x2#4 0x05#8)
    (fun t => (t.reg 0x1#4, t.reg 0xF#4)) = some (0xFE#8, 0x00#8) := by decide
/-- TA18 -/
theorem test_subReg_vf : run1 0x8F15#16 (fun s => (s.setReg 0xF#4 0x10#8).setReg 0x1#4 0x05#8)
    (fun t => (t.reg 0xF#4, t.reg 0x1#4)) = some (0xFC#8, 0x05#8) := by decide
/-- TA21 -/
theorem test_shr : run1 0x8126#16 (fun s => (s.setReg 0x1#4 0x05#8).setReg 0x2#4 0xFF#8)
    (fun t => (t.reg 0x1#4, t.reg 0xF#4, t.reg 0x2#4)) = some (0x02#8, 0x01#8, 0xFF#8) := by decide
/-- TA24 -/
theorem test_shr_vf : run1 0x8F16#16 (fun s => s.setReg 0xF#4 0x03#8)
    (fun t => t.reg 0xF#4) = some 0x00#8 := by decide
/-- TA25 -/
theorem test_subnReg : run1 0x8127#16 (fun s => (s.setReg 0x1#4 0x03#8).setReg 0x2#4 0x05#8)
    (fun t => (t.reg 0x1#4, t.reg 0xF#4)) = some (0x02#8, 0x01#8) := by decide
/-- TA29 -/
theorem test_subnReg_vf : run1 0x81F7#16 (fun s => (s.setReg 0x1#4 0x05#8).setReg 0xF#4 0x10#8)
    (fun t => (t.reg 0x1#4, t.reg 0xF#4)) = some (0xFC#8, 0x01#8) := by decide
/-- TA30 -/
theorem test_shl : run1 0x812E#16 (fun s => s.setReg 0x1#4 0x81#8)
    (fun t => (t.reg 0x1#4, t.reg 0xF#4)) = some (0x02#8, 0x01#8) := by decide
/-- TA33 -/
theorem test_shl_vf : run1 0x8F1E#16 (fun s => s.setReg 0xF#4 0x81#8)
    (fun t => t.reg 0xF#4) = some 0x02#8 := by decide
/-- TA34: with the draw 0xAB. -/
theorem test_rnd : (rndWith 0xAB#8 0x1#4 0x0F#8 State.reset).reg 0x1#4 = 0x0B#8 := by decide
/-- TA35: whatever the draw. -/
theorem test_rnd_mask0 (r : Byte) : (rndWith r 0x1#4 0x00#8 State.reset).reg 0x1#4 = 0x00#8 := by
  simp [rndWith]
/-- TM1 -/
theorem test_ldI : run1 0xAFFF#16 id (fun t => t.i) = some 0x0FFF#16 := by decide
/-- TM3 -/
theorem test_addI : run1 0xF11E#16 (fun s => (s.setI 0x0EFF#16).setReg 0x1#4 0x02#8)
    (fun t => (t.i, t.reg 0xF#4)) = some (0x0F01#16, 0x01#8) := by decide
/-- TM4 -/
theorem test_addI_wraps : run1 0xF11E#16 (fun s => (s.setI 0xFFFF#16).setReg 0x1#4 0x01#8)
    (fun t => (t.i, t.reg 0xF#4)) = some (0x0000#16, 0x00#8) := by decide
/-- TM8 -/
theorem test_ldF : run1 0xF129#16 (fun s => s.setReg 0x1#4 0xFF#8) (fun t => t.i) = some 0x04FB#16 := by decide
/-- TM13 -/
theorem test_bcd : run1 0xF133#16 (fun s => ((s.setReg 0x1#4 0x07#8).setI 0x0FFD#16).storeBytes 0xFFD [0x09#8, 0x09#8, 0x09#8])
    (fun t => (t.mem.read 0xFFD, t.mem.read 0xFFE, t.mem.read 0xFFF, t.i)) =
    some (0x00#8, 0x00#8, 0x07#8, 0x0FFD#16) := by decide
/-- TM14 -/
theorem test_bcd_out : run1 0xF133#16 (fun s => ((s.setReg 0x1#4 0x07#8).setI 0x0FFE#16).storeBytes 0xFFE [0x09#8])
    (fun t => (t.mem.read 0xFFE, t.pc, t.halt)) =
    some (0x09#8, 0x0200#16, some ⟨.outOfBoundsMemoryAccess, 0x0200#16, some 0xF133#16, some 0x1000, none⟩) := by decide
/-- TM16 -/
theorem test_storeRegs : run1 0xF355#16 (fun s => (((((s.setI 0x0300#16).setReg 0x0#4 0x01#8).setReg 0x1#4 0x02#8).setReg 0x2#4 0x03#8).setReg 0x3#4 0x04#8).setReg 0x4#4 0x05#8)
    (fun t => (t.mem.read 0x300, t.mem.read 0x303, t.mem.read 0x304, t.i)) =
    some (0x01#8, 0x04#8, 0x00#8, 0x0300#16) := by decide
/-- TM17 -/
theorem test_storeRegs_out : run1 0xF355#16 (fun s => (s.setI 0x0FFD#16).setReg 0x0#4 0x01#8)
    (fun t => (t.mem.read 0xFFD, t.halt)) =
    some (0x00#8, some ⟨.outOfBoundsMemoryAccess, 0x0200#16, some 0xF355#16, some 0x1000, none⟩) := by decide
/-- TM19 -/
theorem test_loadRegs : run1 0xFF65#16 (fun s => (s.setI 0x0300#16).storeBytes 0x300 [0x00#8, 0x01#8, 0x02#8, 0x03#8, 0x04#8, 0x05#8, 0x06#8, 0x07#8, 0x08#8, 0x09#8, 0x0A#8, 0x0B#8, 0x0C#8, 0x0D#8, 0x0E#8, 0x0F#8])
    (fun t => (t.reg 0x0#4, t.reg 0x7#4, t.reg 0xF#4, t.i)) =
    some (0x00#8, 0x07#8, 0x0F#8, 0x0300#16) := by decide
/-- TM20 -/
theorem test_loadRegs_font : run1 0xF465#16 (fun s => s.setReg 0x5#4 0x77#8)
    (fun t => (t.reg 0x0#4, t.reg 0x1#4, t.reg 0x4#4, t.reg 0x5#4)) =
    some (0xF0#8, 0x90#8, 0xF0#8, 0x77#8) := by decide
/-- TD5 -/
theorem test_drw_collision : run1 0xD011#16 (fun s => ((s.setI 0x0300#16).storeBytes 0x300 [0xC0#8]).setPixel 1 0 true)
    (fun t => (t.pixel 0 0, t.pixel 1 0, t.reg 0xF#4)) = some (true, false, 0x01#8) := by decide +kernel
/-- TD9 -/
theorem test_drw_vf : run1 0xDF11#16 (fun s => (((s.setI 0x0300#16).storeBytes 0x300 [0xC0#8]).setReg 0xF#4 0x05#8).setPixel 0 0 true)
    (fun t => (t.pixel 0 0, t.pixel 1 0, t.pixel 2 0, t.reg 0xF#4)) =
    some (false, false, true, 0x01#8) := by decide +kernel
/-- TK1 -/
theorem test_skp : run1 0xE19E#16 (fun s => (s.setReg 0x1#4 0x03#8).setKey 3 true)
    (fun t => t.pc) = some 0x0204#16 := by decide
/-- TK5 -/
theorem test_skp_out : run1 0xE19E#16 (fun s => s.setReg 0x1#4 0x10#8)
    (fun t => (t.pc, t.halt)) =
    some (0x0200#16, some ⟨.keyIndexOutOfRange, 0x0200#16, some 0xE19E#16, none, some 0x10#8⟩) := by decide
/-- TK4 -/
theorem test_sknp : run1 0xE1A1#16 (fun s => (s.setReg 0x1#4 0x03#8).setKey 3 true)
    (fun t => t.pc) = some 0x0202#16 := by decide
/-- TK3 -/
theorem test_sknp_skips : run1 0xE1A1#16 (fun s => s.setReg 0x1#4 0x03#8)
    (fun t => t.pc) = some 0x0204#16 := by decide
/-- TK7 -/
theorem test_ldVxK : run1 0xF20A#16 (fun s => (s.setKey 3 true).setKey 9 true)
    (fun t => (t.reg 0x2#4, t.pc)) = some (0x09#8, 0x0202#16) := by decide
/-- TK8 -/
theorem test_ldVxK_waits : run1 0xF20A#16 (fun s => s.setReg 0x2#4 0x44#8)
    (fun t => (t.reg 0x2#4, t.pc)) = some (0x44#8, 0x0200#16) := by decide
/-- TK11 -/
theorem test_ldVxDt : run1 0xF107#16 (fun s => s.setDt 0x3C#8)
    (fun t => (t.reg 0x1#4, t.dt)) = some (0x3C#8, 0x3C#8) := by decide
/-- TK12 -/
theorem test_ldDtVx : run1 0xF115#16 (fun s => s.setReg 0x1#4 0x09#8) (fun t => t.dt) = some 0x09#8 := by decide
/-- TK13 -/
theorem test_ldStVx : run1 0xF118#16 (fun s => s.setReg 0x1#4 0x20#8)
    (fun t => (t.st, t.dt)) = some (0x20#8, 0x00#8) := by decide

/-! ### Fetching and halting -/

/-- TS7: the last address a fetch can have. -/
theorem test_fetch_last : run1 0x1234#16 (fun s => withPc 0x0FFE#16 s) (fun t => t.pc) = some 0x0234#16 := by decide
/-- TS8. -/
theorem test_fetch_beyond : after (step (withPc 0x0FFF#16 State.reset)) (fun t => t.halt) =
    some (some ⟨.outOfBoundsMemoryAccess, 0x0FFF#16, none, some 0x1000, none⟩) := by decide
/-- TS11: an odd PC is legal. -/
theorem test_fetch_odd : run1 0x6007#16 (fun s => withPc 0x0201#16 s) (fun t => (t.reg 0x0#4, t.pc)) =
    some (0x07#8, 0x0203#16) := by decide
/-- From reset, with nothing placed, the first step fetches the word 0x0000 at 0x200 (R42, TS2). -/
theorem test_reset_step : afterOp (hostOp defaultFont .step (some State.reset)) (fun t => t.pc) =
    some (0x0202#16, .stepped (.unhandled 0x0200#16 0x0000#16)) := by decide

/-! ### Host operations -/

/-- TK16: the tick works on a halted core and HALT stays. -/
theorem test_tick_halted :
    afterOp (hostOp defaultFont .tickTimers
        (some ((State.reset.setDt 0x05#8).setHalt (some (underflowRecord 0x0200#16 0x00EE#16)))))
      (fun t => (t.dt, t.st, t.halt.isSome)) = some ((0x04#8, 0x00#8, true), .none) := by decide
/-- TK18. -/
theorem test_key_16_refused : hostOp defaultFont (.keyDown 16) (some State.reset) = .refused (.keyOutsideInterface 16) :=
  rfl
/-- TR4: a second load keeps the tail of the first. -/
theorem test_load_keeps_tail :
    afterOp (hostOp defaultFont (.loadRom [0x60#8]) (some (State.reset.loadRom [0x12#8, 0x34#8])))
      (fun t => (t.mem.read 0x200, t.mem.read 0x201, t.pc)) = some ((0x60#8, 0x34#8, 0x0200#16), .none) := by decide
/-- TR5: reset does not reload a ROM. -/
theorem test_reset_drops_rom : hostOp defaultFont .reset (some (State.reset.loadRom [0x12#8])) = .next (State.reset, .none) :=
  rfl
/-- Log entry 2: a later reset keeps the model's count of draws, and leaves the reset state otherwise (TR1). -/
theorem test_reset_keeps_draws :
    afterOp (hostOp defaultFont .reset (some ((rndWith 0xAB#8 0x1#4 0x0F#8 State.reset).setHalt
        (some (underflowRecord 0x0200#16 0x00EE#16)))))
      (fun t => (t.draws, t.reg 0x1#4, t.pc, t.halt)) = some ((1, 0x00#8, 0x0200#16, none), .none) := by decide
/-- The codes of R201's table. -/
theorem test_halt_codes : ([.stackOverflow, .stackUnderflow, .outOfBoundsMemoryAccess, .keyIndexOutOfRange] :
    List HaltReason).map HaltReason.code = [1, 2, 3, 4] := by decide
/-- TR6. -/
theorem test_step_before_reset : hostOp defaultFont .step none = .refused .beforeReset := rfl

/-! ### Witnesses: states and operands that meet the hypotheses of the statements, clause by clause -/

theorem test_witness_DecodeOfEncode : (Instr.unhandled 0xFFFF#16).wellFormed = true ∧
    decode (encode (.unhandled 0xFFFF#16)) = .unhandled 0xFFFF#16 := by decide

theorem test_witness_TwoBytes : (0x1234#16).toNat = (0x12#8).toNat * 256 + (0x34#8).toNat ∧
    [0x12#8].length < 2 ∧ ([] : List Byte).length < 2 := by decide

/-- The last fetchable address, holding the word 0x1234. -/
def atTop : State := (withPc 0x0FFE#16 State.reset).storeBytes 0xFFE [0x12#8, 0x34#8]

theorem test_witness_StepRuns : atTop.halt = none ∧ atTop.pc.toNat ≤ 0xFFE ∧
    (0x1234#16).toNat = (atTop.mem.read atTop.pc.toNat).toNat * 256 + (atTop.mem.read (atTop.pc.toNat + 1)).toNat := by decide

theorem test_witness_PlacedWord : (withPc 0x0FFE#16 State.reset).pc.toNat ≤ 0xFFE ∧
    (0x200 : Nat) ≠ (withPc 0x0FFE#16 State.reset).pc.toNat ∧ (0x200 : Nat) ≠ (withPc 0x0FFE#16 State.reset).pc.toNat + 1 := by
  decide

/-- A core halted by a return with an empty stack (P5). -/
def haltedCore : State := State.reset.setHalt (some (underflowRecord 0x0200#16 0x00EE#16))

theorem test_witness_HaltedCore : haltedCore.halt = some (underflowRecord 0x0200#16 0x00EE#16) ∧
    HostOp.tickTimers ≠ HostOp.reset ∧
    hostOp defaultFont .tickTimers (some haltedCore) = .next (haltedCore.tickTimers, .none) :=
  ⟨rfl, by decide, rfl⟩

theorem test_witness_FetchOutside : (withPc 0x0FFF#16 State.reset).halt = none ∧
    0xFFF ≤ (withPc 0x0FFF#16 State.reset).pc.toNat ∧ 0xFFF ≤ (withPc 0x10FE#16 State.reset).pc.toNat := by decide

theorem test_witness_Unhandled : State.reset.halt = none ∧ State.reset.pc.toNat ≤ 0xFFE ∧
    (0x0000#16).toNat = (State.reset.mem.read State.reset.pc.toNat).toNat * 256 +
      (State.reset.mem.read (State.reset.pc.toNat + 1)).toNat ∧ recognised 0x0000#16 = false := by decide

/-- A recognised word that runs to completion, and one that halts. -/
theorem test_witness_Executed : recognised 0x1234#16 = true ∧
    after (exec (decode 0x1234#16) atTop) (fun t => t.halt) = some none ∧ recognised 0x00EE#16 = true ∧
    after (exec (decode 0x00EE#16) (State.reset.withFetchWord 16 0x00EE)) (fun t => t.halt.isSome) = some true ∧
    (0x00EE#16).toNat = ((State.reset.withFetchWord 16 0x00EE).mem.read 0x200).toNat * 256 +
      ((State.reset.withFetchWord 16 0x00EE).mem.read 0x201).toNat := by decide

/-- A key wait at PC with no key held; TK8 gives the outcome. -/
theorem test_witness_Executed_key_wait :
    let s := State.reset.withFetchWord 16 0xF20A
    s.halt = none ∧ s.pc.toNat ≤ 0xFFE ∧
    (encode (.ldVxK 0x2#4)).toNat = (s.mem.read s.pc.toNat).toNat * 256 + (s.mem.read (s.pc.toNat + 1)).toNat ∧
    (∀ j : Fin 16, s.keyHeld (BitVec.ofNat 4 j.val) = false) ∧
    afterOp (hostOp defaultFont .step (some s)) (fun t => t.pc) = some (0x0200#16, .stepped .executed) := by decide

theorem test_witness_Return : (withSp 0x01#8 State.reset).sp.toNat = (0 : Fin 16).val + 1 ∧
    (withSp 0x10#8 State.reset).sp.toNat = (15 : Fin 16).val + 1 ∧ State.reset.sp = 0x00#8 := by decide

theorem test_witness_Jump : State.reset.pc.toNat = (0x200#12).toNat ∧
    after (exec (.jp 0x200#12) State.reset) id = some State.reset := by decide

theorem test_witness_JumpWithOffset : State.reset.halt = none ∧
    after (exec (.jpV0 0xFFF#12) State.reset) (fun t => decide (0xFFE < t.pc.toNat)) = some true := by decide

theorem test_witness_Call : (withSp 0x00#8 State.reset).sp.toNat = (0 : Fin 16).val ∧
    (withSp 0x0F#8 State.reset).sp.toNat = (15 : Fin 16).val ∧ (withSp 0x10#8 State.reset).sp = 0x10#8 ∧
    (0 : Fin 16) ≠ 15 := by decide

theorem test_witness_StackPointerAboveSixteen : 16 < (withSp 0x11#8 State.reset).sp.toNat ∧
    16 < (withSp 0xFF#8 State.reset).sp.toNat := by decide

theorem test_witness_SkipOnRegisters : opOf 0x5121#16 = 0x5#4 ∧ nOf 0x5121#16 ≠ 0x0#4 ∧
    opOf 0x912F#16 = 0x9#4 ∧ nOf 0x912F#16 ≠ 0x0#4 := by decide

/-- The clauses of the flag instructions with x other than F, and a third register. -/
theorem test_witness_not_VF : (0x1#4 : RegNum) ≠ VF ∧ (0x2#4 : RegNum) ≠ 0x1#4 ∧ (0x2#4 : RegNum) ≠ VF := by decide

theorem test_witness_RandomByte : (0x0F#8).getLsbD 7 = false ∧ (0x00#8 : Byte) = 0x00#8 ∧ (0x2#4 : RegNum) ≠ 0x1#4 := by
  decide

theorem test_witness_DecimalDigits : (State.reset.setI 0x0FFD#16).i.toNat + 2 ≤ 0xFFF ∧
    0xFFF < (State.reset.setI 0x0FFE#16).i.toNat + 2 ∧
    0x300 < (State.reset.setI 0x0FFD#16).i.toNat ∧ (State.reset.setI 0x0300#16).i.toNat + 2 < 0x303 := by decide

theorem test_witness_RegisterTransfers : (State.reset.setI 0x0FF0#16).i.toNat + (0xF#4 : RegNum).toNat ≤ 0xFFF ∧
    0xFFF < (State.reset.setI 0x0FF1#16).i.toNat + (0xF#4 : RegNum).toNat ∧
    (0xF#4 : RegNum).toNat ≤ (0xF#4 : RegNum).toNat := by decide

/-- Fifteen rows ending at the last byte of memory. -/
def drawState : State := ((State.reset.setI 0x0FF1#16).storeBytes 0xFF1 [0x80#8]).setPixel 0 0 true

theorem test_witness_Draw : (0x0#4 : RegNum) ≠ VF ∧ (0x1#4 : RegNum) ≠ VF ∧
    drawState.i.toNat + (0xF#4 : Nibble).toNat - 1 ≤ 0xFFF ∧
    (0xF#4 : Nibble) ≠ 0x0#4 ∧ 0xFFF < (State.reset.setI 0x0FF2#16).i.toNat + (0xF#4 : Nibble).toNat - 1 := by decide

theorem test_witness_Draw_collides : ∃ px py, SpriteCovers drawState 0x0#4 0x1#4 15 px py ∧ drawState.pixel px py = true :=
  ⟨0, 0, ⟨0, 0, by decide, by decide, by decide, by decide, by decide⟩, by decide⟩

theorem test_witness_Draw_clear : ¬ ∃ px py, SpriteCovers drawState 0x0#4 0x1#4 0 px py ∧ drawState.pixel px py = true := by
  rintro ⟨_, _, ⟨r, _, h, _⟩, _⟩
  exact absurd h (by omega)

theorem test_witness_SkipOnKey : ((State.reset.setReg 0x1#4 0x0F#8).reg 0x1#4).toNat = (0xF#4 : Nibble).toNat ∧
    0xF < ((State.reset.setReg 0x1#4 0x10#8).reg 0x1#4).toNat := by decide

theorem test_witness_KeyWait : ((State.reset.setKey 3 true).setKey 9 true).keyHeld 0x9#4 = true ∧
    (∀ j : Fin 16, 9 < j.val → ((State.reset.setKey 3 true).setKey 9 true).keyHeld (BitVec.ofNat 4 j.val) = false) ∧
    (∀ j : Fin 16, State.reset.keyHeld (BitVec.ofNat 4 j.val) = false) := by decide

/-- What each reason of a halt asks of the state, met once per instruction that raises it. -/
theorem test_witness_Halts :
    after (exec .ret State.reset) (fun t => t.halt.isSome) = some true ∧
    after (exec (.call 0x300#12) (withSp 0x10#8 State.reset)) (fun t => t.halt.isSome) = some true ∧
    after (exec (.bcd 0x0#4) (State.reset.setI 0x0FFE#16)) (fun t => t.halt.isSome) = some true ∧
    after (exec (.storeRegs 0x1#4) (State.reset.setI 0x0FFF#16)) (fun t => t.halt.isSome) = some true ∧
    after (exec (.loadRegs 0x0#4) (State.reset.setI 0x1000#16)) (fun t => t.halt.isSome) = some true ∧
    after (exec (.skp 0x1#4) (State.reset.setReg 0x1#4 0x10#8)) (fun t => t.halt.isSome) = some true ∧
    after (exec (.sknp 0x1#4) (State.reset.setReg 0x1#4 0xFF#8)) (fun t => t.halt.isSome) = some true ∧
    State.reset.halt = none := by decide

theorem test_witness_Halts_draw : after (exec (.drw 0x0#4 0x1#4 0x2#4) (State.reset.setI 0x0FFF#16)) (fun t => t.halt.isSome) =
    some true := by decide +kernel

/-- A step that halts, as the statement about precise halts has it. -/
theorem test_witness_HaltsArePrecise :
    after (step (State.reset.withFetchWord 16 0x00EE)) (fun t => t.halt.isSome) = some true ∧
    (State.reset.withFetchWord 16 0x00EE).halt = none := by decide

/-- Each part that has writers is changed by one of them somewhere. -/
theorem test_witness_Writers :
    after (exec (.ldI 0x300#12) State.reset) (fun t => decide (t.i ≠ State.reset.i)) = some true ∧
    after (exec (.call 0x300#12) State.reset) (fun t => decide (t.sp ≠ State.reset.sp)) = some true ∧
    after (exec (.call 0x300#12) State.reset) (fun t => decide (t.stack ≠ State.reset.stack)) = some true ∧
    after (exec (.ldDtVx 0x1#4) (State.reset.setReg 0x1#4 0x09#8)) (fun t => decide (t.dt ≠ State.reset.dt)) = some true ∧
    after (exec (.ldStVx 0x1#4) (State.reset.setReg 0x1#4 0x09#8)) (fun t => decide (t.st ≠ State.reset.st)) = some true ∧
    after (exec (.storeRegs 0x1#4) ((State.reset.setReg 0x1#4 0x09#8).setI 0x0300#16))
      (fun t => decide (t.mem.read 0x301 ≠ State.reset.mem.read 0x301)) = some true ∧
    after (exec .cls (notDirty State.reset)) (fun t => decide (t.dirty ≠ (notDirty State.reset).dirty)) = some true ∧
    after (exec (.ldImm VF 0x07#8) State.reset) (fun t => decide (t.reg VF ≠ State.reset.reg VF)) = some true := by decide

theorem test_witness_Writers_more :
    (0x1#4 : RegNum) ≠ VF ∧
    after (exec (.ldImm 0x1#4 0x07#8) State.reset) (fun t => decide (t.reg 0x1#4 ≠ State.reset.reg 0x1#4)) = some true ∧
    after (exec (.jp 0x300#12) State.reset) (fun t => decide (t.pc ≠ State.reset.pc + 2)) = some true ∧
    after (exec (.bcd 0x0#4) (State.reset.setI 0x0FFE#16)) (fun t => decide (t.pc ≠ State.reset.pc + 2)) = some true ∧
    after (exec .ret State.reset) (fun t => decide (t.halt ≠ State.reset.halt)) = some true ∧
    after (exec (.rnd 0x1#4 0x0F#8) State.reset) (fun t => decide (t.draws ≠ State.reset.draws)) = some true := by decide

theorem test_witness_Writers_screen :
    after (exec .cls (State.reset.setPixel 0 0 true)) (fun t => decide (t.fb ≠ (State.reset.setPixel 0 0 true).fb)) =
      some true := by decide +kernel

theorem test_witness_PcAsTabled : State.reset.halt = none ∧
    after (exec (.ldI 0x300#12) State.reset) (fun t => decide (t.halt = none)) = some true ∧
    after (exec .ret State.reset) (fun t => decide (t.halt ≠ none)) = some true := by decide

theorem test_witness_NeverRead : after (exec (.ldVxDt 0x1#4) State.reset) (fun t => t.pc) = some 0x0202#16 := by decide

/-- Reset's state is legal. -/
theorem test_witness_legal_reset : State.reset.Inv :=
  ⟨by decide, by decide, by decide, by decide, by simp [State.reset, State.resetWith], by simp [State.reset, State.resetWith]⟩

/-- The edges of the legal ranges: SP 16, a slot 0x1000, PC 0x10FE. -/
def edgeState : State := withSlot 15 0x1000#16 (withSp 0x10#8 (withPc 0x10FE#16 State.reset))

theorem test_witness_legal_edge : edgeState.Inv :=
  ⟨by decide, by decide, by decide, by decide, by simp [edgeState, withSlot, withSp, withPc, State.reset, State.resetWith],
    by simp [edgeState, withSlot, withSp, withPc, State.reset, State.resetWith]⟩

theorem test_witness_legal_edge_steps : after (step edgeState) (fun t => t.halt) =
    some (some ⟨.outOfBoundsMemoryAccess, 0x10FE#16, none, some 0x10FE, none⟩) := by decide

theorem test_witness_HostOperations : hostOp defaultFont .tickTimers (some State.reset) =
    .next (State.reset.tickTimers, .none) := rfl

/-- Two memories written in different orders. -/
theorem test_witness_EqualReads :
    let m := (State.reset.mem.write 0x300 0x01#8).write 0x301 0x02#8
    let m' := (State.reset.mem.write 0x301 0x02#8).write 0x300 0x01#8
    m.wf = true ∧ m'.wf = true ∧ m.font = m'.font ∧ ∀ a, m.read a = m'.read a := by
  refine ⟨by decide, by decide, by decide, fun a => ?_⟩
  simp only [Memory.read_write]
  by_cases h1 : a = 0x300
  · simp [h1]
  · by_cases h2 : a = 0x301
    · simp [h2]
    · simp [h1, h2]

theorem test_witness_StoreThenLoad : (State.reset.setI 0x0FF0#16).i.toNat + (0xF#4 : RegNum).toNat ≤ 0xFFF ∧
    after (exec (.storeRegs 0xF#4) (State.reset.setI 0x0FF0#16)) (fun t => t.i) = some 0x0FF0#16 := by decide

theorem test_witness_CallThenReturn : (withSp 0x0F#8 State.reset).sp.toNat < 16 ∧
    after (exec (.call 0x300#12) (withSp 0x0F#8 State.reset)) (fun t => after (exec .ret t) (fun u => (u.pc, u.sp))) =
      some (some (0x0202#16, 0x0F#8)) := by decide

/-- TM21. -/
def selfModifying : State := (State.reset.setI 0x0202#16).setReg 0x0#4 0x12#8

theorem test_witness_StoredCode : selfModifying.halt = none ∧ 1 ≤ (0x1#4 : RegNum).toNat ∧
    selfModifying.i.toNat + (0x1#4 : RegNum).toNat ≤ 0xFFF ∧ selfModifying.i = selfModifying.pc + 2 ∧
    (0x1200#16).toNat = (selfModifying.reg 0x0#4).toNat * 256 + (selfModifying.reg 0x1#4).toNat ∧
    after (exec (.storeRegs 0x1#4) selfModifying) (fun t => after (step t) (fun u => u.pc)) = some (some 0x0200#16) := by
  decide

theorem test_witness_ResetComesFirst : HostOp.step ≠ HostOp.reset ∧ HostOp.loadRom [] ≠ HostOp.reset := by decide

theorem test_witness_KeyOperations : 16 ≤ 16 ∧ (0x0#4 : Nibble) ≠ 0xF#4 ∧
    afterOp (hostOp defaultFont (.keyDown 15) (some State.reset)) (fun t => t.keyHeld 0xF#4) = some (true, .none) := by decide

/-- A ROM of 3585 bytes has one byte too many (TR3): its last lies past 0xFFF, the one before at 0xFFF. -/
theorem test_witness_Rom : 3583 < (List.replicate 3585 0xAA#8).length ∧ 0x200 + 3583 ≤ 0xFFF ∧
    0xFFF < 0x200 + 3584 ∧ (0x1FF : Nat) < 0x200 := by
  rw [List.length_replicate]; decide

theorem test_witness_ClearDirty : State.reset.dirty = true ∧
    afterOp (hostOp defaultFont .clearDirty (some State.reset)) (fun t => t.dirty) = some (false, .none) := by decide

end Sys2Proof.Tests
end

section
/-! SUPPORT. What every instruction can do, said once (spec/10_state.md R23 to R39): it halts and writes HALT alone, or it
completes, and then each part of the state has its writers and PC goes where `pcAfter` says. -/

namespace Sys2Proof.Machine

variable {s t : State}

/-! ### Parts of the state -/

theorem Component.forall_iff {p : Component → Prop} : (∀ c, p c) ↔
    p .general ∧ p .index ∧ p .stackPointer ∧ p .stackSlots ∧ p .delayTimer ∧ p .soundTimer ∧ p .memory ∧
      p .framebuffer ∧ p .dirtyFlag ∧ p .keypad ∧ p .haltRegister ∧ p .drawCount := by
  refine ⟨fun h => by simp [h], ?_⟩
  rintro ⟨_, _, _, _, _, _, _, _, _, _, _, _⟩ c
  cases c <;> assumption

theorem stack_eq_of_same (h : Component.stackSlots.Same s t) : t.stack = s.stack :=
  Vector.ext fun k hk => h ⟨k, hk⟩

theorem fb_eq_of_same (h : Component.framebuffer.Same s t) : t.fb = s.fb :=
  Vector.ext fun py hy => Vector.ext fun px hx => h ⟨px, hx⟩ ⟨py, hy⟩

theorem keys_eq_of_same (h : Component.keypad.Same s t) : t.keys = s.keys :=
  Vector.ext fun k hk => by simpa [State.keyHeld, Nat.mod_eq_of_lt hk] using h (BitVec.ofNat 4 k)

/-! ### The operands of control transfer, in the form of `pcAfter` -/

theorem addressOf_eq_ofNat (nnn : Addr12) : addressOf nnn = BitVec.ofNat 16 nnn.toNat := by
  simp [addressOf]

theorem offsetTarget_eq_ofNat (nnn : Addr12) (b : Byte) :
    offsetTarget nnn b = BitVec.ofNat 16 (nnn.toNat + b.toNat) := by
  apply BitVec.eq_of_toNat_eq
  simp [offsetTarget]

theorem eq_setWidth_of_keyOf {b : Byte} {k : Nibble} (h : keyOf b = some k) : k = b.setWidth 4 := by
  unfold keyOf at h
  split at h
  · exact (Option.some.inj h).symm
  · cases h

/-! ### The writers -/

/-- The eight instructions that can halt (R201). -/
def CanHalt (i : Instr) : Prop :=
  (∃ nnn, i = .call nnn) ∨ i = .ret ∨ (∃ x, i = .skp x ∨ i = .sknp x) ∨
    (∃ x, i = .bcd x ∨ i = .storeRegs x ∨ i = .loadRegs x) ∨ ∃ x y n, i = .drw x y n

/-- The general registers that a completing instruction may write: its destinations, and VF as the flag (R23, R39). -/
@[simp] def WritesReg (i : Instr) (z : RegNum) : Prop :=
  match i with
  | .ldImm x _ | .addImm x _ | .ldReg x _ | .orReg x _ | .andReg x _ | .xorReg x _ | .rnd x _ | .ldVxDt x
  | .ldVxK x => z = x
  | .addReg x _ | .subReg x _ | .shr x _ | .subnReg x _ | .shl x _ => z = x ∨ z = VF
  | .drw _ _ _ | .addI _ => z = VF
  | .loadRegs x => z.toNat ≤ x.toNat
  | .cls | .ret | .jp _ | .call _ | .seImm _ _ | .sneImm _ _ | .seReg _ _ | .sneReg _ _ | .ldI _ | .jpV0 _ | .skp _
  | .sknp _ | .ldDtVx _ | .ldStVx _ | .ldF _ | .bcd _ | .storeRegs _ | .unhandled _ => False

/-- The parts that a completing instruction may write (R25, R30 to R37). -/
@[simp] def Writes (i : Instr) (c : Component) : Prop :=
  match c with
  | .general => ∃ z, WritesReg i z
  | .index => (∃ nnn, i = .ldI nnn) ∨ (∃ x, i = .addI x) ∨ ∃ x, i = .ldF x
  | .stackPointer => (∃ nnn, i = .call nnn) ∨ i = .ret
  | .stackSlots => ∃ nnn, i = .call nnn
  | .delayTimer => ∃ x, i = .ldDtVx x
  | .soundTimer => ∃ x, i = .ldStVx x
  | .memory => (∃ x, i = .bcd x) ∨ ∃ x, i = .storeRegs x
  | .framebuffer | .dirtyFlag => i = .cls ∨ ∃ x y n, i = .drw x y n
  | .drawCount => ∃ x kk, i = .rnd x kk
  | .keypad | .haltRegister => False

/-- What holds of the states before and after an instruction that completes. -/
structure Completes (i : Instr) (s t : State) : Prop where
  /-- A part that the instruction does not write is the same. -/
  parts : ∀ c, ¬ Writes i c → c.Same s t
  /-- A register that the instruction does not write is the same. -/
  regs : ∀ z, ¬ WritesReg i z → t.reg z = s.reg z
  /-- PC goes where R27 says. -/
  pc : t.pc = pcAfter i s
  /-- At most one byte is drawn. -/
  draws : t.draws = s.draws ∨ t.draws = s.draws + 1
  /-- DIRTY is not cleared. -/
  dirty : t.dirty = s.dirty ∨ t.dirty = true
  /-- FONT is kept. -/
  font : t.mem.font = s.mem.font

/-! ### Every instruction halts or completes -/

theorem completes_loadRegs (x : RegNum) (s : State) :
    Completes (.loadRegs x) s (s.advance.loadRegBytes s.base (x.toNat + 1)) := by
  have regs : ∀ z, ¬ WritesReg (.loadRegs x) z →
      (s.advance.loadRegBytes s.base (x.toNat + 1)).reg z = s.reg z := fun z hz => by
    have hz : ¬ z.toNat < x.toNat + 1 := fun h => hz (Nat.le_of_lt_succ h)
    rw [State.loadRegBytes_reg _ _ _ x.isLt, if_neg hz, State.advance_reg]
  have general : ∃ z : RegNum, z.toNat ≤ x.toNat := ⟨x, le_rfl⟩
  rw [loaded_eq] at regs ⊢
  refine ⟨?_, regs, rfl, .inl rfl, .inl rfl, rfl⟩
  simp [Component.forall_iff, Component.Same, general, State.pixel, State.keyHeld]

theorem completes_drw (x y : RegNum) (n : Nibble) (s : State) :
    Completes (.drw x y n) s (drawSprite x y n.toNat (s.advance.setReg VF 0x00#8)).markDirty := by
  have regs : ∀ z, ¬ WritesReg (.drw x y n) z →
      (drawSprite x y n.toNat (s.advance.setReg VF 0x00#8)).markDirty.reg z = s.reg z := fun z hz => by
    rw [State.markDirty_reg, drawSprite_reg_of_ne _ _ _ _ hz, State.setReg_reg_of_ne _ hz, State.advance_reg]
  rw [drawn_eq] at regs ⊢
  refine ⟨?_, regs, rfl, .inl rfl, .inr rfl, rfl⟩
  simp [Component.forall_iff, Component.Same, State.keyHeld]

/-- All that an instruction can do: nothing but a halt, or completing. -/
theorem exec_halts_or_completes {i : Instr} (h : exec i s = .next t) :
    (CanHalt i ∧ ∃ r, t = s.setHalt (some r)) ∨ Completes i s t := by
  cases i with
  | ldImm x kk | addImm x kk | ldReg x y | orReg x y | andReg x y | xorReg x y | rnd x kk | ldVxDt x
  | addReg x y | subReg x y | shr x y | subnReg x y | shl x y | addI x =>
    cases Host.Outcome.next.inj h
    right
    constructor <;> simp +contextual [Component.forall_iff, Component.Same, pcAfter, State.setReg_reg,
      State.setFlag_reg, rndWith]
  | seImm x kk | sneImm x kk | seReg x y | sneReg x y | jp nnn | jpV0 nnn | cls | ldI nnn | ldF x | ldDtVx x
  | ldStVx x | unhandled w =>
    cases Host.Outcome.next.inj h
    right
    constructor <;> simp [Component.forall_iff, Component.Same, pcAfter, addressOf_eq_ofNat,
      offsetTarget_eq_ofNat, BitVec.add_assoc]
  | ret =>
    obtain ⟨-, rfl⟩ | ⟨hk, -, rfl⟩ := execRet_cases h
    · exact .inl ⟨by simp [CanHalt], _, rfl⟩
    · right
      constructor <;> simp [Component.forall_iff, Component.Same, pcAfter, State.reg, State.pixel, State.keyHeld, hk]
  | call nnn =>
    obtain ⟨-, rfl⟩ | ⟨hk, rfl⟩ := execCall_cases h
    · exact .inl ⟨by simp [CanHalt], _, rfl⟩
    · right
      constructor <;> simp [Component.forall_iff, Component.Same, pcAfter, State.reg, State.pixel, State.keyHeld,
        addressOf_eq_ofNat]
  | skp x =>
    obtain ⟨k, hk, rfl⟩ | ⟨-, rfl⟩ := execSkp_cases h
    · cases eq_setWidth_of_keyOf hk
      right
      constructor <;> simp [Component.forall_iff, Component.Same, pcAfter, BitVec.add_assoc]
    · exact .inl ⟨by simp [CanHalt], _, rfl⟩
  | sknp x =>
    obtain ⟨k, hk, rfl⟩ | ⟨-, rfl⟩ := execSknp_cases h
    · cases eq_setWidth_of_keyOf hk
      right
      cases held : s.keyHeld ((s.reg x).setWidth 4) <;>
        constructor <;> simp [Component.forall_iff, Component.Same, pcAfter, BitVec.add_assoc, held]
    · exact .inl ⟨by simp [CanHalt], _, rfl⟩
  | ldVxK x =>
    right
    obtain ⟨none_held, rfl⟩ | ⟨k, held, -, rfl⟩ := execLdVxK_cases h
    · constructor <;> simp [Component.forall_iff, Component.Same, pcAfter, none_held]
    · have some_held : ∃ k, s.keyHeld k = true := ⟨k, held⟩
      constructor <;> simp +contextual [Component.forall_iff, Component.Same, pcAfter, State.setReg_reg, some_held]
  | bcd x | storeRegs x =>
    obtain ⟨-, rfl⟩ | ⟨-, -, rfl⟩ := commitIfInRange_cases h
    · right
      constructor <;> simp [Component.forall_iff, Component.Same, pcAfter]
    · exact .inl ⟨by simp [CanHalt], _, rfl⟩
  | loadRegs x =>
    obtain ⟨-, rfl⟩ | ⟨-, -, rfl⟩ := commitIfInRange_cases h
    · exact .inr (completes_loadRegs x s)
    · exact .inl ⟨by simp [CanHalt], _, rfl⟩
  | drw x y n =>
    obtain ⟨-, rfl⟩ | ⟨-, -, rfl⟩ := commitIfInRange_cases h
    · exact .inr (completes_drw x y n s)
    · exact .inl ⟨by simp [CanHalt], _, rfl⟩

end Sys2Proof.Machine
end

section
/-! SUPPORT. The statements of spec/10_state.md: who writes each part of the state, and what reset leaves in it. -/

namespace Sys2Proof.Machine

/-- Settles O42: a halt writes HALT alone; a part that changed when the instruction completes is one it `Writes`. -/
theorem eachPartHasItsWriters : Obligations.EachPartHasItsWriters := by
  intro i s t h
  obtain ⟨hc, r, rfl⟩ | ⟨parts, regs, pc, draws, dirty, font⟩ := exec_halts_or_completes h
  · refine ⟨by simp, fun _ => ?_, fun _ => hc, by simp⟩
    rcases hc with ⟨nnn, rfl⟩ | rfl | ⟨x, rfl | rfl⟩ | ⟨x, rfl | rfl | rfl⟩ | ⟨x, y, n, rfl⟩ <;> simp
  · have writes : ∀ c : Component, ¬ c.Same s t → Writes i c := fun c => not_imp_comm.mp (parts c)
    refine ⟨fun z hz hne => ?_, fun hne => ?_, fun hne => (writes .haltRegister hne).elim,
      fun hne => ⟨draws.resolve_left hne, writes .drawCount hne⟩, writes .index, writes .stackPointer,
      fun hne => writes .stackSlots (mt stack_eq_of_same hne), writes .delayTimer, writes .soundTimer,
      fun ⟨a, hne⟩ => writes .memory fun same => hne (same a), fun hne => writes .framebuffer (mt fb_eq_of_same hne),
      fun hne => ⟨dirty.resolve_left hne, writes .dirtyFlag hne⟩, keys_eq_of_same (parts .keypad not_false), font⟩
    · have hw : WritesReg i z := not_imp_comm.mp (regs z) hne
      -- the rows of `WritesReg` that allow a register other than VF
      cases i <;> simp_all
    · rw [pc] at hne
      -- the rows of `pcAfter` that are not a + 2
      cases i <;> simp [pcAfter] at hne ⊢

/-- Settles O54: nothing is listed in memory after reset, so every address reads as FONT below 0x050 and 0 above. -/
theorem resetLeavesTheTabledValues : Obligations.ResetLeavesTheTabledValues := by
  rintro font s rfl
  have read_eq : ∀ a, (State.resetWith font).mem.read a = (font[a]?).getD 0x00#8 := fun _ => rfl
  refine ⟨?_, rfl, rfl, rfl, ?_, rfl, rfl, fun a => ?_, fun a ha => ?_, ?_, rfl, ?_, rfl⟩
  · simp [State.reg, State.resetWith]
  · simp [State.resetWith]
  · simp [read_eq]
  · simp [read_eq, Nat.not_lt.mpr ha]
  · simp [State.pixel, State.resetWith]
  · simp [State.keyHeld, State.resetWith]

end Sys2Proof.Machine
end

section
/-! SUPPORT. The statements of spec/20_memory.md: the fetched word, and the step that runs its instruction. -/

namespace Sys2Proof.Machine

variable {s : State} {w : Word}

/-- A fetch with PC and PC + 1 in memory gives the word whose value is big-endian (R52). -/
theorem State.fetch_eq_of_toNat (hpc : s.pc.toNat ≤ 0xFFE)
    (hw : w.toNat = (s.mem.read s.pc.toNat).toNat * 256 + (s.mem.read (s.pc.toNat + 1)).toNat) :
    s.fetch = some w := by
  rw [s.fetch_eq_some hpc, wordOfBytes_of_toNat hw]

/-- The running case of `step` (R92, R93): neither a halted core nor a fetch outside memory. -/
theorem step_eq_exec_of_fetch (running : s.halt = none) (fetched : s.fetch = some w) : step s = exec (decode w) s := by
  simp only [step, running, fetched]

/-- Settles O8: the fetch gives the big-endian word at PC, and the running case of `step` runs its instruction. -/
theorem stepRunsTheDecodedWord : Obligations.StepRunsTheDecodedWord :=
  fun _ _ running hpc hw => step_eq_exec_of_fetch running (State.fetch_eq_of_toNat hpc hw)

end Sys2Proof.Machine
end

section
/-! SUPPORT. The statements of spec/30_encoding.md: encoding what a word decodes to gives the word back, and the decoder
takes two bytes. -/

namespace Sys2Proof

variable {w : Word} {op : Nibble}

/-! ### A word from the digits that its format fixes and the fields that it leaves open (R71 to R73) -/

theorem encNNN_of_op (hop : opOf w = op) : encNNN op (nnnOf w) = w := by
  rw [← hop, encNNN_fields]

theorem encXKK_of_op (hop : opOf w = op) : encXKK op (xOf w) (kkOf w) = w := by
  rw [← hop, encXKK_fields]

theorem encXKK_of_op_kk {kk : Byte} (hop : opOf w = op) (hkk : kkOf w = kk) : encXKK op (xOf w) kk = w := by
  rw [← hkk, encXKK_of_op hop]

theorem encXYN_of_op (hop : opOf w = op) : encXYN op (xOf w) (yOf w) (nOf w) = w := by
  rw [← hop, encXYN_fields]

theorem encXYN_of_op_n {n : Nibble} (hop : opOf w = op) (hn : nOf w = n) : encXYN op (xOf w) (yOf w) n = w := by
  rw [← hn, encXYN_of_op hop]

/-! ### The encoder after the decoder, group by group (R74) -/

theorem encode_decode0 (w : Word) : encode (decode0 w) = w := by
  unfold decode0
  split_ifs <;> simp [encode, *]

theorem encode_decode8 (hop : opOf w = 0x8#4) : encode (decode8 w) = w := by
  unfold decode8
  split_ifs <;> simp only [encode, encXYN_of_op_n, *]

theorem encode_decodeE (hop : opOf w = 0xE#4) : encode (decodeE w) = w := by
  unfold decodeE
  split_ifs <;> simp only [encode, encXKK_of_op_kk, *]

theorem encode_decodeF (hop : opOf w = 0xF#4) : encode (decodeF w) = w := by
  unfold decodeF
  split_ifs <;> simp only [encode, encXKK_of_op_kk, *]

/-- Decoding loses nothing of a word: its group fixes `op`, and the instruction carries the other fields. -/
theorem encode_decode (w : Word) : encode (decode w) = w := by
  rcases nibble_cases (opOf w) with h | h | h | h | h | h | h | h | h | h | h | h | h | h | h | h <;>
    simp only [decode, h, BitVec.reduceEq, reduceIte]
  · exact encode_decode0 w
  · exact encNNN_of_op h
  · exact encNNN_of_op h
  · exact encXKK_of_op h
  · exact encXKK_of_op h
  · split_ifs with hn
    · exact encXYN_of_op_n h hn
    · rfl
  · exact encXKK_of_op h
  · exact encXKK_of_op h
  · exact encode_decode8 h
  · split_ifs with hn
    · exact encXYN_of_op_n h hn
    · rfl
  · exact encNNN_of_op h
  · exact encNNN_of_op h
  · exact encXKK_of_op h
  · exact encXYN_of_op h
  · exact encode_decodeE h
  · exact encode_decodeF h

/-! ### The decoder on bytes (R52, R70) -/

@[simp] theorem decodeBytes_cons_cons (hi lo : Byte) (rest : List Byte) :
    decodeBytes (hi :: lo :: rest) = .ok (decode (wordOfBytes hi lo), rest) := rfl

theorem decodeBytes_of_toNat {hi lo : Byte} (rest : List Byte) (h : w.toNat = hi.toNat * 256 + lo.toNat) :
    decodeBytes (hi :: lo :: rest) = .ok (decode w, rest) := by
  rw [decodeBytes_cons_cons, wordOfBytes_of_toNat h]

theorem decodeBytes_encodeBytes_append (i : Instr) (rest : List Byte) :
    decodeBytes (encodeBytes i ++ rest) = .ok (decode (encode i), rest) := by
  simp [encodeBytes, wordOfBytes_bytes]

theorem decodeBytes_truncated {bs : List Byte} (short : bs.length < 2) : decodeBytes bs = .error .truncated := by
  match bs, short with
  | [], _ => rfl
  | [_], _ => rfl

/-- Settles O7: two bytes are read as one big-endian word, and `encode_decode` gives back the word that was decoded. -/
theorem instructionsAreTwoBigEndianBytes : Obligations.InstructionsAreTwoBigEndianBytes :=
  ⟨fun _ => rfl, fun _ _ rest _ h => decodeBytes_of_toNat rest h,
    fun w rest => by rw [decodeBytes_encodeBytes_append, encode_decode], fun _ short => decodeBytes_truncated short⟩

end Sys2Proof
end

section
/-! SUPPORT. The words of the catch-all: those that match no row of the opcode table, and the instruction carries the word
(spec/30_encoding.md R75, R77). -/

namespace Sys2Proof.Machine

variable {w : Word}

/-! ### Digits of a word and of a pattern -/

@[simp] theorem digitAllows_none (b : Nibble) : digitAllows none b = true := rfl

@[simp] theorem digitAllows_some (f b : Nibble) : digitAllows (some f) b = decide (b = f) :=
  decide_eq_decide.mpr eq_comm

theorem eq_encXYN_iff {op x y n : Nibble} :
    w = encXYN op x y n ↔ opOf w = op ∧ xOf w = x ∧ yOf w = y ∧ nOf w = n := by
  refine ⟨fun h => by simp [h], ?_⟩
  rintro ⟨rfl, rfl, rfl, rfl⟩
  exact (encXYN_fields w).symm

theorem kkOf_eq_iff {kk : Byte} : kkOf w = kk ↔ yOf w = kk.extractLsb' 4 4 ∧ nOf w = kk.extractLsb' 0 4 := by
  constructor
  · rintro rfl
    rw [← yOf_encXKK (opOf w) (xOf w), ← nOf_encXKK (opOf w) (xOf w), encXKK_fields]
    exact ⟨rfl, rfl⟩
  · rintro ⟨hy, hn⟩
    rw [← kkOf_encXKK (opOf w) (xOf w) kk, kkOf_eq, kkOf_eq, yOf_encXKK, nOf_encXKK, hy, hn]

/-! ### The catch-all's words, group by group (R74, R77) -/

theorem decode0_eq_unhandled_iff : decode0 w = .unhandled w ↔
    w ≠ encXYN 0x0#4 0x0#4 0xE#4 0x0#4 ∧ w ≠ encXYN 0x0#4 0x0#4 0xE#4 0xE#4 := by
  change _ ↔ w ≠ 0x00E0#16 ∧ w ≠ 0x00EE#16
  unfold decode0
  split_ifs <;> simp [*]

theorem decode8_eq_unhandled_iff : decode8 w = .unhandled w ↔
    nOf w ∉ [0x0#4, 0x1#4, 0x2#4, 0x3#4, 0x4#4, 0x5#4, 0x6#4, 0x7#4, 0xE#4] := by
  unfold decode8
  split_ifs <;> simp [*]

theorem decodeE_eq_unhandled_iff : decodeE w = .unhandled w ↔ kkOf w ∉ [0x9E#8, 0xA1#8] := by
  unfold decodeE
  split_ifs <;> simp [*]

theorem decodeF_eq_unhandled_iff : decodeF w = .unhandled w ↔
    kkOf w ∉ [0x07#8, 0x0A#8, 0x15#8, 0x18#8, 0x1E#8, 0x29#8, 0x33#8, 0x55#8, 0x65#8] := by
  unfold decodeF
  split_ifs <;> simp [*]

/-- The decoder and the opcode table agree on the catch-all: in each group, the rows ask for the digits that the group's
decoder tests. -/
theorem decode_eq_unhandled_iff : decode w = .unhandled w ↔ recognised w = false := by
  rcases nibble_cases (opOf w) with h | h | h | h | h | h | h | h | h | h | h | h | h | h | h | h <;>
    simp [decode, recognised, opcodePatterns, patternMatches, h, decode0_eq_unhandled_iff, eq_encXYN_iff,
      decode8_eq_unhandled_iff, decodeE_eq_unhandled_iff, decodeF_eq_unhandled_iff, kkOf_eq_iff]

theorem isUnhandled_iff {i : Instr} : isUnhandled i ↔ ∃ v, i = .unhandled v := by
  cases i <;> simp [isUnhandled]

/-- An instruction of the catch-all carries the word it was decoded from. -/
theorem decode_eq_unhandled (h : isUnhandled (decode w)) : decode w = .unhandled w := by
  obtain ⟨v, hv⟩ := isUnhandled_iff.mp h
  rw [hv, ← encode_decode w, hv, encode]

theorem isUnhandled_decode_iff : isUnhandled (decode w) ↔ recognised w = false := by
  rw [← decode_eq_unhandled_iff]
  exact ⟨decode_eq_unhandled, fun h => isUnhandled_iff.mpr ⟨w, h⟩⟩

theorem decode_encode_ldVxK (x : RegNum) : decode (encode (.ldVxK x)) = .ldVxK x := by
  simp [encode, decode, decodeF]

end Sys2Proof.Machine
end

section
/-! SUPPORT. The statement of spec/40_step.md on what a step returns (R95, R96). -/

namespace Sys2Proof.Machine

variable {s t : State} {w : Word}

theorem exec_unhandled (w : Word) (s : State) : exec (.unhandled w) s = .next s.advance := rfl

theorem State.scanKeys_eq_none (released : ∀ k, s.keyHeld k = false) : s.scanKeys = none := by
  obtain ⟨scan, -⟩ | ⟨k, -, held, -⟩ := State.scanKeys_cases s
  · exact scan
  · simp [released] at held

/-- A key wait with no key held changes nothing, PC included: R183 puts back the fetch advance. -/
theorem exec_ldVxK_of_no_key (x : RegNum) (released : ∀ k, s.keyHeld k = false) : exec (.ldVxK x) s = .next s := by
  have back : s.advance.jumpTo (s.advance.pc - 2) = s := by simp [State.jumpTo, State.advance]
  change execLdVxK x s = .next s
  simp only [execLdVxK, State.scanKeys_eq_none released, back]

/-! ### The outcome of a step (R96) -/

theorem stepOutcome_of_halted {r : HaltRecord} (halted : t.halt = some r) : stepOutcome s t = .halted r := by
  simp only [stepOutcome, halted]

theorem stepOutcome_of_running (running : t.halt = none) (fetched : s.fetch = some w) :
    stepOutcome s t = if isUnhandled (decode w) then .unhandled s.pc w else .executed := by
  simp only [stepOutcome, running, fetched]

section running

variable (font : Font) (running : s.halt = none) (fetched : s.fetch = some w)
include running fetched

/-- The host's step on a running core whose fetch succeeds: the state that the instruction leaves, and its outcome. -/
theorem hostOp_step_of_exec (ran : exec (decode w) s = .next t) :
    hostOp font .step (some s) = .next (t, .stepped (stepOutcome s t)) := by
  have stepped : step s = .next t := (step_eq_exec_of_fetch running fetched).trans ran
  simp only [hostOp, runHostOp, hostStep, stepped]

theorem hostOp_step_unhandled (unhandled : isUnhandled (decode w)) :
    hostOp font .step (some s) = .next (s.advance, .stepped (.unhandled s.pc w)) := by
  have ran : exec (decode w) s = .next s.advance := by rw [decode_eq_unhandled unhandled, exec_unhandled]
  have completed : s.advance.halt = none := running
  rw [hostOp_step_of_exec font running fetched ran, stepOutcome_of_running completed fetched, if_pos unhandled]

theorem hostOp_step_executed (handled : ¬ isUnhandled (decode w)) (ran : exec (decode w) s = .next t)
    (completed : t.halt = none) : hostOp font .step (some s) = .next (t, .stepped .executed) := by
  rw [hostOp_step_of_exec font running fetched ran, stepOutcome_of_running completed fetched, if_neg handled]

theorem hostOp_step_halted {r : HaltRecord} (ran : exec (decode w) s = .next t) (halted : t.halt = some r) :
    hostOp font .step (some s) = .next (t, .stepped (.halted r)) := by
  rw [hostOp_step_of_exec font running fetched ran, stepOutcome_of_halted halted]

end running

/-- Settles O12: the outcome follows from HALT after the step and from the word fetched, which is the catch-all's when it is
not `recognised`. -/
theorem unhandledWordOnlyAdvancesPc : Obligations.UnhandledWordOnlyAdvancesPc := by
  refine ⟨fun w s => ⟨s.advance, exec_unhandled w s, rfl, ?_⟩, fun font w s running hpc hw unrecognised => ?_,
    fun font w s t running hpc hw known ran => ?_, fun font x s running hpc hw released => ?_, by decide, by decide⟩
  · simp [keepsAllBut_iff]
  · have fetched := State.fetch_eq_of_toNat hpc hw
    exact hostOp_step_unhandled font running fetched (isUnhandled_decode_iff.mpr unrecognised)
  · have fetched := State.fetch_eq_of_toNat hpc hw
    have handled : ¬ isUnhandled (decode w) := by simp [isUnhandled_decode_iff, known]
    exact ⟨hostOp_step_executed font running fetched handled ran, fun _ => hostOp_step_halted font running fetched ran⟩
  · have fetched := State.fetch_eq_of_toNat hpc hw
    have decoded := decode_encode_ldVxK x
    have handled : ¬ isUnhandled (decode (encode (.ldVxK x))) := by simp [decoded, isUnhandled]
    have ran : exec (decode (encode (.ldVxK x))) s = .next s := by rw [decoded, exec_ldVxK_of_no_key x released]
    exact hostOp_step_executed font running fetched handled ran running

end Sys2Proof.Machine
end

section
/-! SUPPORT. The statement of spec/41_flow.md on JP nnn (R102). -/

namespace Sys2Proof.Machine

theorem toNat_addressOf (nnn : Addr12) : (addressOf nnn).toNat = nnn.toNat :=
  BitVec.toNat_setWidth_of_le (by decide)

theorem State.jumpTo_pc_self (s : State) : s.jumpTo s.pc = s := rfl

/-- The jump target replaces the fetch advance: JP is one write of PC. -/
theorem exec_jp (nnn : Addr12) (s : State) : exec (.jp nnn) s = .next (s.jumpTo (addressOf nnn)) := rfl

/-- A jump frames every part of the state, since PC is none of the `Component`s. -/
theorem keepsAllBut_jumpTo (s : State) (target : Word) : KeepsAllBut [] s (s.jumpTo target) := by
  simp [keepsAllBut_iff]

theorem exec_jp_self {nnn : Addr12} {s : State} (self : s.pc.toNat = nnn.toNat) : exec (.jp nnn) s = .next s := by
  have target : addressOf nnn = s.pc := BitVec.eq_of_toNat_eq ((toNat_addressOf nnn).trans self.symm)
  rw [exec_jp, target, State.jumpTo_pc_self]

/-- Settles O14: JP writes its zero-extended address to PC and nothing else, so at its own address it writes what PC holds. -/
theorem jumpGoesToAddress : Obligations.JumpGoesToAddress := fun nnn s =>
  ⟨toNat_encNNN 0x1#4 nnn,
    ⟨s.jumpTo (addressOf nnn), exec_jp nnn s, toNat_addressOf nnn, keepsAllBut_jumpTo s (addressOf nnn)⟩,
    exec_jp_self⟩

end Sys2Proof.Machine
end

section
/-! SUPPORT. The statements of spec/42_alu.md on the instructions that write one register and no flag: the loads, ADD of an
immediate, and the bitwise operations (R121 to R126). -/

namespace Sys2Proof.Machine

/-! ### The words of group 8 -/

/-- The encoding lines of group 8, `0x800n | x << 8 | y << 4`. -/
theorem toNat_encXYN_group8 (x y : RegNum) (n : Nibble) :
    (encXYN 0x8#4 x y n).toNat = 0x8000 + n.toNat + x.toNat * 256 + y.toNat * 16 := by
  rw [toNat_encXYN, BitVec.toNat_ofNat]
  omega

/-! ### Each instruction is the fetch advance and one register write -/

section meanings

variable (x y : RegNum) (kk : Byte) (s : State)

theorem exec_ldImm : exec (.ldImm x kk) s = .next (s.advance.setReg x kk) := rfl
theorem exec_addImm : exec (.addImm x kk) s = .next (s.advance.setReg x (s.reg x + kk)) := rfl
theorem exec_ldReg : exec (.ldReg x y) s = .next (s.advance.setReg x (s.reg y)) := rfl
theorem exec_orReg : exec (.orReg x y) s = .next (s.advance.setReg x (s.reg x ||| s.reg y)) := rfl
theorem exec_andReg : exec (.andReg x y) s = .next (s.advance.setReg x (s.reg x &&& s.reg y)) := rfl
theorem exec_xorReg : exec (.xorReg x y) s = .next (s.advance.setReg x (s.reg x ^^^ s.reg y)) := rfl

end meanings

/-- What the advance and a write of Vx leave: the other registers, VF among them unless it is Vx, the next instruction's PC,
and every part of the state but the registers. -/
theorem advance_setReg_frame (x : RegNum) (b : Byte) (s : State) :
    KeepsRegsBut x s (s.advance.setReg x b) ∧ (s.advance.setReg x b).pc = s.pc + 2 ∧
      KeepsAllBut [.general] s (s.advance.setReg x b) := by
  refine ⟨fun r other => ?_, rfl, ?_⟩
  · rw [State.setReg_reg_of_ne _ other, State.advance_reg]
  · simp [keepsAllBut_iff]

/-! ### The statements -/

/-- Settles O20: the one register write is of kk. -/
theorem loadImmediate : Obligations.LoadImmediate := fun x kk s =>
  ⟨toNat_encXKK 0x6#4 x kk, _, exec_ldImm x kk s, State.setReg_reg_self _ x kk, advance_setReg_frame x kk s⟩

/-- Settles O21: the one register write is of the sum of bytes, which is modulo 256. -/
theorem addImmediateWrapsWithoutFlag : Obligations.AddImmediateWrapsWithoutFlag := fun x kk s => by
  refine ⟨toNat_encXKK 0x7#4 x kk, _, exec_addImm x kk s, ?_, advance_setReg_frame x _ s⟩
  rw [State.setReg_reg_self, BitVec.toNat_add]

/-- Settles O22: the one register write is of Vy as it was. -/
theorem copyRegister : Obligations.CopyRegister := fun x y s =>
  ⟨toNat_encXYN_group8 x y 0x0#4, _, exec_ldReg x y s, State.setReg_reg_self _ x _, advance_setReg_frame x _ s⟩

/-- Settles O23: the one register write is of a bitwise operation on bytes, whose bits are the operation on the bits. -/
theorem bitwiseOperations : Obligations.BitwiseOperations := fun x y s => by
  refine ⟨toNat_encXYN_group8 x y 0x1#4, toNat_encXYN_group8 x y 0x2#4, toNat_encXYN_group8 x y 0x3#4,
    ⟨_, exec_orReg x y s, fun j => ?_, advance_setReg_frame x _ s⟩,
    ⟨_, exec_andReg x y s, fun j => ?_, advance_setReg_frame x _ s⟩,
    ⟨_, exec_xorReg x y s, fun j => ?_, advance_setReg_frame x _ s⟩⟩
  · rw [State.setReg_reg_self, BitVec.getLsbD_or]
  · rw [State.setReg_reg_self, BitVec.getLsbD_and]
  · rw [State.setReg_reg_self, BitVec.getLsbD_xor]

end Sys2Proof.Machine
end

section
/-! SUPPORT. The statement of spec/43_index_memory.md on the two loads of I (R141, R143). -/

namespace Sys2Proof.Machine

/-- Five times a byte is at most 1275, so the product in 16 bits is exact. -/
theorem toNat_glyphAddress (b : Byte) : (glyphAddress b).toNat = b.toNat * 5 := by
  have bound := b.isLt
  have product : (glyphAddress b).toNat = b.toNat % 2 ^ 16 * 5 % 2 ^ 16 := by
    rw [glyphAddress, BitVec.toNat_mul, BitVec.toNat_setWidth, BitVec.toNat_ofNat]
  omega

theorem exec_ldI (nnn : Addr12) (s : State) : exec (.ldI nnn) s = .next (s.advance.setI (addressOf nnn)) := rfl
theorem exec_ldF (x : RegNum) (s : State) : exec (.ldF x) s = .next (s.advance.setI (glyphAddress (s.reg x))) := rfl

/-- What the advance and a write of I leave: the next instruction's PC, and every part of the state but I. -/
theorem advance_setI_frame (a : Word) (s : State) :
    (s.advance.setI a).pc = s.pc + 2 ∧ KeepsAllBut [.index] s (s.advance.setI a) :=
  ⟨rfl, by simp [keepsAllBut_iff]⟩

/-- The encoding lines of group F, `0xF0kk | x << 8`. -/
theorem toNat_encXKK_groupF (x : RegNum) (kk : Byte) :
    (encXKK 0xF#4 x kk).toNat = 0xF000 + kk.toNat + x.toNat * 256 := by
  rw [toNat_encXKK, BitVec.toNat_ofNat]
  omega

/-- Settles O28: the one write of each load is of I, and zero-extending an address or multiplying a byte by five loses no
bit in 16. -/
theorem loadIndexAndGlyph : Obligations.LoadIndexAndGlyph :=
  ⟨fun nnn s => ⟨toNat_encNNN 0xA#4 nnn, _, exec_ldI nnn s, toNat_addressOf nnn, advance_setI_frame _ s⟩,
    fun x s => ⟨toNat_encXKK_groupF x 0x29#8, _, exec_ldF x s, toNat_glyphAddress (s.reg x), advance_setI_frame _ s⟩⟩

end Sys2Proof.Machine
end

section
/-! SUPPORT. The statement of spec/44_display.md on CLS (R161). -/

namespace Sys2Proof.Machine

theorem exec_cls (s : State) : exec .cls s = .next s.advance.clearFb.markDirty := rfl

/-- What CLS leaves besides a cleared screen and a set DIRTY: every other part of the state. -/
theorem keepsAllBut_clearFb_markDirty (s : State) :
    KeepsAllBut [.framebuffer, .dirtyFlag] s s.advance.clearFb.markDirty := by
  simp [keepsAllBut_iff]

/-- Settles O33: CLS is the fetch advance, one write of every cell and one of DIRTY. -/
theorem clearScreen : Obligations.ClearScreen := by
  refine ⟨rfl, fun s => ⟨s.advance.clearFb.markDirty, exec_cls s, fun px py => ?_, rfl, rfl,
    keepsAllBut_clearFb_markDirty s⟩⟩
  rw [State.markDirty_pixel, State.clearFb_pixel]

end Sys2Proof.Machine
end

section
/-! SUPPORT. The statements of spec/45_keypad_timers.md on the key wait and the transfers of the timers (R183 to R186). -/

namespace Sys2Proof.Machine

/-! ### The key wait (R183) -/

section held

variable {s : State} {k : Nibble} (held : s.keyHeld k = true)
  (highest : ∀ j : Nibble, k.toNat < j.toNat → s.keyHeld j = false)
include held highest

/-- A held key with no held key above it is what the scan finds: of two such keys neither is above the other. -/
theorem State.scanKeys_eq_some : s.scanKeys = some k := by
  obtain ⟨-, released⟩ | ⟨found, scan, found_held, found_highest⟩ := State.scanKeys_cases s
  · simp [released] at held
  · have not_above : ¬ k.toNat < found.toNat := fun above => by simp [highest found above] at found_held
    have not_below : ¬ found.toNat < k.toNat := fun below => by simp [found_highest k below] at held
    have same : found = k := BitVec.eq_of_toNat_eq (by omega)
    rw [scan, same]

/-- With a key held, R183 puts the fetch advance back and makes it again: the key wait is the advance and one register
write. -/
theorem exec_ldVxK_of_highest_key (x : RegNum) :
    exec (.ldVxK x) s = .next (s.advance.setReg x (k.setWidth 8)) := by
  have back : s.advance.jumpTo (s.advance.pc - 2) = s := by simp [State.jumpTo, State.advance]
  change execLdVxK x s = _
  simp only [execLdVxK, State.scanKeys_eq_some held highest, back]
  rfl

end held

/-- Settles O38: the scan finds the highest held key, whose index a byte holds; with none held nothing is written. -/
theorem keyWaitTakesHighestKey : Obligations.KeyWaitTakesHighestKey := fun x s => by
  refine ⟨toNat_encXKK_groupF x 0x0A#8, fun k held highest =>
    ⟨_, exec_ldVxK_of_highest_key held highest x, ?_, advance_setReg_frame x _ s⟩, exec_ldVxK_of_no_key x⟩
  rw [State.setReg_reg_self, BitVec.toNat_setWidth_of_le (by decide)]

/-! ### The timers (R184 to R186) -/

section transfers

variable (x : RegNum) (s : State)

theorem exec_ldVxDt : exec (.ldVxDt x) s = .next (s.advance.setReg x s.dt) := rfl
theorem exec_ldDtVx : exec (.ldDtVx x) s = .next (s.advance.setDt (s.reg x)) := rfl
theorem exec_ldStVx : exec (.ldStVx x) s = .next (s.advance.setSt (s.reg x)) := rfl

end transfers

/-- What the advance and a write of DT leave: the next instruction's PC, and every part of the state but DT. -/
theorem advance_setDt_frame (b : Byte) (s : State) :
    (s.advance.setDt b).pc = s.pc + 2 ∧ KeepsAllBut [.delayTimer] s (s.advance.setDt b) :=
  ⟨rfl, by simp [keepsAllBut_iff]⟩

/-- What the advance and a write of ST leave: the next instruction's PC, and every part of the state but ST. -/
theorem advance_setSt_frame (b : Byte) (s : State) :
    (s.advance.setSt b).pc = s.pc + 2 ∧ KeepsAllBut [.soundTimer] s (s.advance.setSt b) :=
  ⟨rfl, by simp [keepsAllBut_iff]⟩

/-- Settles O39: the one write of each transfer is of the register or the timer it names. -/
theorem timerTransfers : Obligations.TimerTransfers := fun x s =>
  ⟨toNat_encXKK_groupF x 0x07#8, toNat_encXKK_groupF x 0x15#8, toNat_encXKK_groupF x 0x18#8,
    ⟨_, exec_ldVxDt x s, State.setReg_reg_self _ x s.dt, advance_setReg_frame x s.dt s⟩,
    ⟨_, exec_ldDtVx x s, State.setDt_dt _ (s.reg x), advance_setDt_frame (s.reg x) s⟩,
    ⟨_, exec_ldStVx x s, State.setSt_st _ (s.reg x), advance_setSt_frame (s.reg x) s⟩⟩

end Sys2Proof.Machine
end

section
/-! SUPPORT. The statements of spec/60_exceptions.md: what halts an instruction, with which record (R201), and that no
operation but clear_dirty clears DIRTY (R226). -/

namespace Sys2Proof.Machine

variable {s t u : State} {i : Instr} {r : HaltRecord}

/-! ### The records (R201) -/

theorem overflowRecord_legal (pc word : Word) : (overflowRecord pc word).Legal := ⟨rfl, rfl, rfl⟩

theorem underflowRecord_legal (pc word : Word) : (underflowRecord pc word).Legal := ⟨rfl, rfl, rfl⟩

theorem outOfBoundsRecord_legal (pc : Word) (word : Option Word) (base : Nat) : (outOfBoundsRecord pc word base).Legal :=
  ⟨⟨max base 0x1000, outOfBoundsRecord_addr pc word base, le_max_right base 0x1000⟩, rfl⟩

theorem keyRecord_legal (pc word : Word) {key : Byte} (outside : 0xF < key.toNat) : (keyRecord pc word key).Legal :=
  ⟨rfl, rfl, key, rfl, outside⟩

/-! ### The causes of a halt (R201) -/

/-- The instruction `i` has cause to halt at `s`, and `r` is the record that it leaves: one constructor per instruction that
can halt. -/
inductive HaltCause (s : State) : Instr → HaltRecord → Prop
  /-- R103. -/
  | call (nnn : Addr12) (full : s.sp = 0x10#8) : HaltCause s (.call nnn) (overflowRecord s.pc (encode (.call nnn)))
  /-- R101. -/
  | ret (empty : s.sp = 0x00#8) : HaltCause s .ret (underflowRecord s.pc (encode .ret))
  /-- R144. -/
  | bcd (x : RegNum) (leaves : 0x1000 < s.base + 3) :
      HaltCause s (.bcd x) (outOfBoundsRecord s.pc (some (encode (.bcd x))) s.base)
  /-- R145. -/
  | storeRegs (x : RegNum) (leaves : 0x1000 < s.base + (x.toNat + 1)) :
      HaltCause s (.storeRegs x) (outOfBoundsRecord s.pc (some (encode (.storeRegs x))) s.base)
  /-- R146. -/
  | loadRegs (x : RegNum) (leaves : 0x1000 < s.base + (x.toNat + 1)) :
      HaltCause s (.loadRegs x) (outOfBoundsRecord s.pc (some (encode (.loadRegs x))) s.base)
  /-- R162: a sprite of no rows reads no memory. -/
  | drw (x y : RegNum) (n : Nibble) (rows : n.toNat ≠ 0) (leaves : 0x1000 < s.base + n.toNat) :
      HaltCause s (.drw x y n) (outOfBoundsRecord s.pc (some (encode (.drw x y n))) s.base)
  /-- R181. -/
  | skp (x : RegNum) (outside : 0xF < (s.reg x).toNat) :
      HaltCause s (.skp x) (keyRecord s.pc (encode (.skp x)) (s.reg x))
  /-- R182. -/
  | sknp (x : RegNum) (outside : 0xF < (s.reg x).toNat) :
      HaltCause s (.sknp x) (keyRecord s.pc (encode (.sknp x)) (s.reg x))

/-- A commit of a state that is not halted halts only where its range leaves memory. -/
theorem commitIfInRange_halt {w : Word} {base len : Nat} (ran : commitIfInRange s w base len t = .next u)
    (completed : t.halt = none) (halted : u.halt = some r) :
    len ≠ 0 ∧ 0x1000 < base + len ∧ r = outOfBoundsRecord s.pc (some w) base := by
  obtain ⟨-, rfl⟩ | ⟨nonempty, leaves, rfl⟩ := commitIfInRange_cases ran
  · cases completed.symm.trans halted
  · exact ⟨nonempty, leaves, (Option.some.inj halted).symm⟩

/-- An instruction that completes keeps HALT, so what halts a running core is one of the eight that can. -/
theorem canHalt_of_exec (running : s.halt = none) (ran : exec i s = .next t) (halted : t.halt = some r) : CanHalt i := by
  obtain ⟨canHalt, -⟩ | completed := exec_halts_or_completes ran
  · exact canHalt
  · have kept : t.halt = s.halt := completed.parts .haltRegister not_false
    cases (kept.trans running).symm.trans halted

/-- What halts a running core has cause to, and leaves the record of its cause. -/
theorem haltCause_of_exec (running : s.halt = none) (ran : exec i s = .next t) (halted : t.halt = some r) :
    HaltCause s i r := by
  rcases canHalt_of_exec running ran halted with
    ⟨nnn, rfl⟩ | rfl | ⟨x, rfl | rfl⟩ | ⟨x, rfl | rfl | rfl⟩ | ⟨x, y, n, rfl⟩
  · obtain ⟨full, rfl⟩ | ⟨_, rfl⟩ := execCall_cases ran
    · cases Option.some.inj halted
      exact .call nnn full
    · cases running.symm.trans halted
  · obtain ⟨empty, rfl⟩ | ⟨_, -, rfl⟩ := execRet_cases ran
    · cases Option.some.inj halted
      exact .ret empty
    · cases running.symm.trans halted
  · obtain ⟨k, -, rfl⟩ | ⟨outside, rfl⟩ := execSkp_cases ran
    · cases running.symm.trans halted
    · cases Option.some.inj halted
      exact .skp x outside
  · obtain ⟨k, -, rfl⟩ | ⟨outside, rfl⟩ := execSknp_cases ran
    · cases running.symm.trans halted
    · cases Option.some.inj halted
      exact .sknp x outside
  · obtain ⟨-, leaves, rfl⟩ := commitIfInRange_halt ran running halted
    exact .bcd x leaves
  · obtain ⟨-, leaves, rfl⟩ := commitIfInRange_halt ran running halted
    exact .storeRegs x leaves
  · obtain ⟨-, leaves, rfl⟩ := commitIfInRange_halt ran (by rw [loaded_eq]; exact running) halted
    exact .loadRegs x leaves
  · obtain ⟨rows, leaves, rfl⟩ := commitIfInRange_halt ran (by rw [drawn_eq]; exact running) halted
    exact .drw x y n rows leaves

/-- Settles O41: each cause names its instruction, its condition and its record; the bounds are those of R201 once `base` is
read as I. -/
theorem haltReasonsHaveTheirCauses : Obligations.HaltReasonsHaveTheirCauses := by
  refine ⟨⟨rfl, rfl, rfl, rfl⟩, fun i s t r running ran halted => ?_⟩
  have base_eq : s.base = s.i.toNat := rfl
  cases haltCause_of_exec running ran halted with
  | call nnn full => exact ⟨rfl, overflowRecord_legal _ _, .inl ⟨rfl, ⟨nnn, rfl⟩, by simp [full]⟩⟩
  | ret empty => exact ⟨rfl, underflowRecord_legal _ _, .inr (.inl ⟨rfl, rfl, by simp [empty]⟩)⟩
  | bcd x leaves =>
    exact ⟨rfl, outOfBoundsRecord_legal _ _ _, .inr (.inr (.inl ⟨rfl, rfl, .inl ⟨x, rfl, by omega⟩⟩))⟩
  | storeRegs x leaves =>
    exact ⟨rfl, outOfBoundsRecord_legal _ _ _, .inr (.inr (.inl ⟨rfl, rfl, .inr (.inl ⟨x, .inl rfl, by omega⟩)⟩))⟩
  | loadRegs x leaves =>
    exact ⟨rfl, outOfBoundsRecord_legal _ _ _, .inr (.inr (.inl ⟨rfl, rfl, .inr (.inl ⟨x, .inr rfl, by omega⟩)⟩))⟩
  | drw x y n rows leaves =>
    have nonzero : n ≠ 0x0#4 := by rintro rfl; exact rows rfl
    exact ⟨rfl, outOfBoundsRecord_legal _ _ _,
      .inr (.inr (.inl ⟨rfl, rfl, .inr (.inr ⟨x, y, n, rfl, nonzero, by omega⟩)⟩))⟩
  | skp x outside =>
    exact ⟨rfl, keyRecord_legal _ _ outside, .inr (.inr (.inr ⟨rfl, x, .inl rfl, rfl, outside⟩))⟩
  | sknp x outside =>
    exact ⟨rfl, keyRecord_legal _ _ outside, .inr (.inr (.inr ⟨rfl, x, .inr rfl, rfl, outside⟩))⟩

/-! ### DIRTY (R226) -/

/-- All that a step can do: nothing on a halted core (R90), a halt where the fetch leaves memory (R91), else the fetched
instruction (R92, R93). -/
theorem step_cases (h : step s = .next t) :
    (s.halt ≠ none ∧ t = s) ∨
      (s.halt = none ∧ s.fetch = none ∧ t = s.setHalt (some (outOfBoundsRecord s.pc none s.pc.toNat))) ∨
      ∃ w, s.halt = none ∧ s.fetch = some w ∧ exec (decode w) s = .next t := by
  unfold step at h
  split at h
  case h_1 r halted => exact .inl ⟨by simp [halted], (Host.Outcome.next.inj h).symm⟩
  case h_2 running =>
    split at h
    case h_1 unfetched => exact .inr (.inl ⟨running, unfetched, (Host.Outcome.next.inj h).symm⟩)
    case h_2 w fetched => exact .inr (.inr ⟨w, running, fetched, h⟩)

theorem exec_keeps_dirty_set (ran : exec i s = .next t) (was_set : s.dirty = true) : t.dirty = true := by
  obtain ⟨-, r, rfl⟩ | completed := exec_halts_or_completes ran
  · exact was_set
  · rcases completed.dirty with kept | newly_set
    · exact kept.trans was_set
    · exact newly_set

theorem step_keeps_dirty_set (stepped : step s = .next t) (was_set : s.dirty = true) : t.dirty = true := by
  obtain ⟨-, rfl⟩ | ⟨-, -, rfl⟩ | ⟨w, -, -, ran⟩ := step_cases stepped
  · exact was_set
  · exact was_set
  · exact exec_keeps_dirty_set ran was_set

theorem step_of_hostStep {a : Response} (h : hostStep s = .next (t, a)) : step s = .next t := by
  unfold hostStep at h
  split at h
  case h_1 u stepped => cases h; exact stepped
  case h_2 => cases h
  case h_3 => cases h

theorem eq_setKey_of_keyOp {n : Nat} {held : Bool} {a : Response} (h : keyOp s n held = .next (t, a)) :
    t = s.setKey n held := by
  unfold keyOp at h
  split at h
  · cases h; rfl
  · cases h

/-- Every operation but clear_dirty leaves a set DIRTY set; reset sets it. -/
theorem runHostOp_keeps_dirty_set {font : Font} {op : HostOp} {a : Response} (other : op ≠ .clearDirty)
    (ran : runHostOp font op s = .next (t, a)) (was_set : s.dirty = true) : t.dirty = true := by
  cases op with
  | clearDirty => exact absurd rfl other
  | reset => cases ran; rfl
  | loadRom bytes | tickTimers | readFramebuffer | readDirty | readSoundTimer => cases ran; exact was_set
  | keyDown n | keyUp n => cases eq_setKey_of_keyOp ran; exact was_set
  | step => exact step_keeps_dirty_set (step_of_hostStep ran) was_set

/-- Settles O59: clear_dirty is one write of DIRTY, and every other operation leaves a set DIRTY set. -/
theorem onlyClearDirtyClearsDirty : Obligations.OnlyClearDirtyClearsDirty := fun font s => by
  refine ⟨⟨s.clearDirty, rfl, rfl, rfl, by simp [keepsAllBut_iff]⟩, fun op t a ran was_set cleared => ?_⟩
  by_contra other
  have kept : t.dirty = true := runHostOp_keeps_dirty_set other ran was_set
  simp [kept] at cleared

end Sys2Proof.Machine
end

section
/-! SUPPORT. The statements of spec/30_encoding.md on the decoder against the encoder and the opcode table (R74 to R78). -/

namespace Sys2Proof.Machine

variable {w : Word} {i : Instr}

/-- Settles O1: each word is one closed case of the decoder. -/
theorem handWrittenWordsDecode : Obligations.HandWrittenWordsDecode := by
  unfold Obligations.HandWrittenWordsDecode
  decide

/-- The decoder reads an instruction's group and fixed digits back from its word, and then its fields; a catch-all term that
is well formed carries a word of no row. -/
theorem decode_encode (wf : i.wellFormed = true) : decode (encode i) = i := by
  cases i with
  | unhandled w => exact decode_eq_unhandled_iff.mpr (Bool.not_eq_true' _ ▸ wf)
  | cls | ret => rfl
  | ldReg x y | orReg x y | andReg x y | xorReg x y | addReg x y | subReg x y | shr x y | subnReg x y | shl x y =>
    simp [decode, decode8, encode]
  | skp x | sknp x => simp [decode, decodeE, encode]
  | ldVxDt x | ldVxK x | ldDtVx x | ldStVx x | addI x | ldF x | bcd x | storeRegs x | loadRegs x =>
    simp [decode, decodeF, encode]
  | jp nnn | call nnn | seImm x kk | sneImm x kk | seReg x y | ldImm x kk | addImm x kk | sneReg x y | ldI nnn | jpV0 nnn
  | rnd x kk | drw x y n => simp [decode, encode]

/-- Settles O2, by `decode_encode`. -/
theorem decodeOfEncodeIsTheInstruction : Obligations.DecodeOfEncodeIsTheInstruction := fun _ wf => decode_encode wf

/-- Settles O3, by `encode_decode`. -/
theorem encodeOfDecodeIsTheWord : Obligations.EncodeOfDecodeIsTheWord := encode_decode

theorem wellFormed_of_handled (handled : ¬ isUnhandled i) : i.wellFormed = true := by
  cases i with
  | unhandled w => exact absurd rfl handled
  | _ => rfl

/-- Settles O4: only the catch-all's term asks for anything, and the decoder answers it for words of no row. -/
theorem everyWordDecodesWellFormed : Obligations.EveryWordDecodesWellFormed := fun w => by
  by_cases unhandled : isUnhandled (decode w)
  · rw [decode_eq_unhandled unhandled, Instr.wellFormed, isUnhandled_decode_iff.mp unhandled, Bool.not_false]
  · exact wellFormed_of_handled unhandled

/-! ### The opcode table (R75, R76) -/

/-- The rows of the per-instruction family, in the words of `mnemonic`. -/
theorem ownRows_eq (i : Instr) : Laws.TableRow.ownRows i = if isUnhandled i then [] else [i.mnemonic] := by
  cases i <;> rfl

/-- The per-instruction family, collected. -/
theorem matchingMnemonics_encode (wf : i.wellFormed = true) : matchingMnemonics (encode i) = Laws.TableRow.ownRows i := by
  revert wf
  change Laws.TableRow.Statement i
  cases i with
  | cls => exact Laws.TableRow.cls
  | ret => exact Laws.TableRow.ret
  | jp nnn => exact Laws.TableRow.jp nnn
  | call nnn => exact Laws.TableRow.call nnn
  | seImm x kk => exact Laws.TableRow.seImm x kk
  | sneImm x kk => exact Laws.TableRow.sneImm x kk
  | seReg x y => exact Laws.TableRow.seReg x y
  | ldImm x kk => exact Laws.TableRow.ldImm x kk
  | addImm x kk => exact Laws.TableRow.addImm x kk
  | ldReg x y => exact Laws.TableRow.ldReg x y
  | orReg x y => exact Laws.TableRow.orReg x y
  | andReg x y => exact Laws.TableRow.andReg x y
  | xorReg x y => exact Laws.TableRow.xorReg x y
  | addReg x y => exact Laws.TableRow.addReg x y
  | subReg x y => exact Laws.TableRow.subReg x y
  | shr x y => exact Laws.TableRow.shr x y
  | subnReg x y => exact Laws.TableRow.subnReg x y
  | shl x y => exact Laws.TableRow.shl x y
  | sneReg x y => exact Laws.TableRow.sneReg x y
  | ldI nnn => exact Laws.TableRow.ldI nnn
  | jpV0 nnn => exact Laws.TableRow.jpV0 nnn
  | rnd x kk => exact Laws.TableRow.rnd x kk
  | drw x y n => exact Laws.TableRow.drw x y n
  | skp x => exact Laws.TableRow.skp x
  | sknp x => exact Laws.TableRow.sknp x
  | ldVxDt x => exact Laws.TableRow.ldVxDt x
  | ldVxK x => exact Laws.TableRow.ldVxK x
  | ldDtVx x => exact Laws.TableRow.ldDtVx x
  | ldStVx x => exact Laws.TableRow.ldStVx x
  | addI x => exact Laws.TableRow.addI x
  | ldF x => exact Laws.TableRow.ldF x
  | bcd x => exact Laws.TableRow.bcd x
  | storeRegs x => exact Laws.TableRow.storeRegs x
  | loadRegs x => exact Laws.TableRow.loadRegs x
  | unhandled w => exact Laws.TableRow.unhandled w

/-- Settles O5: a word is the word of the well-formed instruction that it decodes to, whose word matches its own row. -/
theorem wordMatchesItsOwnPatternOnly : Obligations.WordMatchesItsOwnPatternOnly := fun w => by
  rw [← ownRows_eq, ← matchingMnemonics_encode (everyWordDecodesWellFormed w), encode_decode]

/-! ### The words of the catch-all, listed (R77) -/

theorem isUnhandled_decode_iff_eq : isUnhandled (decode w) ↔ decode w = .unhandled w :=
  ⟨decode_eq_unhandled, fun h => isUnhandled_iff.mpr ⟨w, h⟩⟩

/-- The digits that group 8 leaves to the catch-all. -/
theorem digit_of_no_group8_row (n : Nibble) :
    n ∉ [0x0#4, 0x1#4, 0x2#4, 0x3#4, 0x4#4, 0x5#4, 0x6#4, 0x7#4, 0xE#4] ↔
      n ∈ [0x8#4, 0x9#4, 0xA#4, 0xB#4, 0xC#4, 0xD#4, 0xF#4] := by
  revert n
  decide

theorem decode0_eq_unhandled_iff_ne : decode0 w = .unhandled w ↔ w ≠ 0x00E0#16 ∧ w ≠ 0x00EE#16 :=
  decode0_eq_unhandled_iff

/-- Settles O6, group by group: the group's decoder says which of its words go to the catch-all. -/
theorem unhandledWordsByGroup : Obligations.UnhandledWordsByGroup := fun w => by
  rw [isUnhandled_decode_iff_eq, ← digit_of_no_group8_row, ← decode0_eq_unhandled_iff_ne, ← decode8_eq_unhandled_iff,
    ← decodeE_eq_unhandled_iff, ← decodeF_eq_unhandled_iff]
  rcases nibble_cases (opOf w) with h | h | h | h | h | h | h | h | h | h | h | h | h | h | h | h <;>
    simp [decode, h]

end Sys2Proof.Machine
end

section
/-! SUPPORT. The statements of spec/41_flow.md on calls, returns, JP V0 and the skips (R100, R101, R103 to R108), and of
spec/45_keypad_timers.md on the skips on a key (R181, R182). -/

namespace Sys2Proof.Machine

/-! ### The step outside memory (R91) -/

/-- The failing case of `step`: a fetch that leaves memory halts. -/
theorem step_outside_memory {s : State} (running : s.halt = none) (outside : 0xFFF ≤ s.pc.toNat) :
    step s = .next (s.setHalt (some (outOfBoundsRecord s.pc none s.pc.toNat))) := by
  simp only [step, running, s.fetch_eq_none outside]
  rfl

/-! ### Returns and calls (R101, R103) -/

section stack

variable {s : State} (nnn : Addr12)

theorem exec_ret_empty (empty : s.sp = 0x00#8) :
    exec .ret s = .next (s.setHalt (some (underflowRecord s.pc (encode .ret)))) :=
  if_pos empty

theorem exec_ret_pops {k : Fin 16} (top : s.sp.toNat = k.val + 1) :
    exec .ret s = .next { s with sp := s.sp - 1, pc := s.stack[k] } := by
  have nonempty : s.sp ≠ 0x00#8 := by bv_omega
  have pops := s.advance.popPc_eq_some (by rw [State.advance_sp]; omega)
  change execRet s = _
  rw [execRet, if_neg nonempty, pops]
  simp [State.advance, top]

theorem exec_ret_faults (above : 16 < s.sp.toNat) : exec .ret s = .fault .stackPointerOutOfRange := by
  have nonempty : s.sp ≠ 0x00#8 := by bv_omega
  change execRet s = _
  rw [execRet, if_neg nonempty, s.advance.popPc_eq_none above]

theorem exec_call_full (full : s.sp = 0x10#8) :
    exec (.call nnn) s = .next (s.setHalt (some (overflowRecord s.pc (encode (.call nnn))))) :=
  if_pos full

theorem exec_call_pushes (below : s.sp.toNat < 16) :
    exec (.call nnn) s =
      .next { s with stack := s.stack.set s.sp.toNat (s.pc + 2) below, sp := s.sp + 1, pc := addressOf nnn } := by
  have not_full : s.sp ≠ 0x10#8 := by bv_omega
  change execCall nnn s = _
  rw [execCall, if_neg not_full, s.advance.push_eq_some below]
  rfl

theorem exec_call_faults (above : 16 < s.sp.toNat) : exec (.call nnn) s = .fault .stackPointerOutOfRange := by
  have not_full : s.sp ≠ 0x10#8 := by bv_omega
  change execCall nnn s = _
  rw [execCall, if_neg not_full, s.advance.push_eq_none above.le]

end stack

/-- A return frames every part of the state but SP. -/
theorem keepsAllBut_pop (s : State) (sp : Byte) (pc : Word) :
    KeepsAllBut [.stackPointer] s { s with sp := sp, pc := pc } := by
  simp [keepsAllBut_iff, State.reg, State.pixel, State.keyHeld]

/-- A call frames every part of the state but SP and the slots. -/
theorem keepsAllBut_push (s : State) (stack : Vector Word 16) (sp : Byte) (pc : Word) :
    KeepsAllBut [.stackPointer, .stackSlots] s { s with stack := stack, sp := sp, pc := pc } := by
  simp [keepsAllBut_iff, State.reg, State.pixel, State.keyHeld]

/-- Settles O13: the two cases of a return with SP in range. -/
theorem returnPopsOrHalts : Obligations.ReturnPopsOrHalts := by
  refine ⟨rfl, fun s k top => ⟨_, exec_ret_pops top, ?_, rfl, keepsAllBut_pop s _ _⟩,
    fun s empty => exec_ret_empty empty⟩
  change (s.sp - 1).toNat = k.val
  bv_omega

/-- Settles O16: the two cases of a call with SP in range; the write of slot SP is seen at SP alone. -/
theorem callPushesOrHalts : Obligations.CallPushesOrHalts := fun nnn => by
  refine ⟨toNat_encNNN 0x2#4 nnn, fun s k top => ?_, fun s full => exec_call_full nnn full⟩
  have below : s.sp.toNat < 16 := top ▸ k.isLt
  refine ⟨_, exec_call_pushes nnn below, ?_, fun j other => ?_, ?_, toNat_addressOf nnn, keepsAllBut_push s _ _ _⟩
  · simp [top]
  · have apart : s.sp.toNat ≠ j.val := fun h => other (Fin.ext (h.symm.trans top))
    simp [Vector.getElem_set_ne _ _ apart]
  · change (s.sp + 1).toNat = k.val + 1
    bv_omega

/-- Settles O17: neither has a slot there. -/
theorem stackPointerAboveSixteenFaults : Obligations.StackPointerAboveSixteenFaults := fun _ nnn above =>
  ⟨exec_ret_faults above, exec_call_faults nnn above⟩

/-- Settles O52: the return finds SP one above the slot that the call wrote. -/
theorem callThenReturnComesBack : Obligations.CallThenReturnComesBack := fun nnn s below => by
  refine ⟨_, exec_call_pushes nnn below, fun u sp stack => ?_⟩
  change u.sp = s.sp + 1 at sp
  have top : u.sp.toNat = (⟨s.sp.toNat, below⟩ : Fin 16).val + 1 := by rw [sp]; bv_omega
  refine ⟨_, exec_ret_pops top, ?_, ?_⟩
  · simp [stack]
  · simp [sp]

/-! ### JP V0 (R108) -/

theorem exec_jpV0 (nnn : Addr12) (s : State) :
    exec (.jpV0 nnn) s = .next (s.jumpTo (offsetTarget nnn (s.reg 0x0#4))) := rfl

/-- The sum of a 12-bit address and a byte is exact in 16 bits. -/
theorem toNat_offsetTarget (nnn : Addr12) (b : Byte) : (offsetTarget nnn b).toNat = nnn.toNat + b.toNat := by
  have hn := nnn.isLt
  have hb := b.isLt
  rw [offsetTarget_eq_ofNat, BitVec.toNat_ofNat, Nat.mod_eq_of_lt (by omega)]

/-- Settles O15: one write of PC, whose value the next fetch finds outside memory when it is above 0xFFE. -/
theorem jumpWithOffsetGoesToSum : Obligations.JumpWithOffsetGoesToSum := fun nnn s =>
  ⟨toNat_encNNN 0xB#4 nnn, _, exec_jpV0 nnn s, toNat_offsetTarget nnn _, keepsAllBut_jumpTo s _,
    fun running outside => step_outside_memory running outside⟩

/-! ### Skips (R104 to R107) -/

section skips

variable (x y : RegNum) (kk : Byte) (s : State)

theorem exec_seImm : exec (.seImm x kk) s = .next (s.advance.skipIf (s.reg x == kk)) := rfl
theorem exec_sneImm : exec (.sneImm x kk) s = .next (s.advance.skipIf (s.reg x != kk)) := rfl
theorem exec_seReg : exec (.seReg x y) s = .next (s.advance.skipIf (s.reg x == s.reg y)) := rfl
theorem exec_sneReg : exec (.sneReg x y) s = .next (s.advance.skipIf (s.reg x != s.reg y)) := rfl

end skips

/-- What the advance and a skip leave: PC at a + 4 when the condition holds, else at a + 2, and every part of the state. -/
theorem advance_skipIf_frame {c : Bool} {p : Prop} [Decidable p] (cond : c = true ↔ p) (s : State) :
    (s.advance.skipIf c).pc = (if p then s.pc + 4 else s.pc + 2) ∧ KeepsAllBut [] s (s.advance.skipIf c) := by
  refine ⟨?_, by simp [keepsAllBut_iff]⟩
  simp [cond, BitVec.add_assoc]

/-- Settles O18: each skips on its comparison of Vx with kk. -/
theorem skipOnImmediate : Obligations.SkipOnImmediate := fun x kk s =>
  ⟨toNat_encXKK 0x3#4 x kk, toNat_encXKK 0x4#4 x kk,
    ⟨_, exec_seImm x kk s, advance_skipIf_frame beq_iff_eq s⟩,
    ⟨_, exec_sneImm x kk s, advance_skipIf_frame bne_iff_ne s⟩⟩

/-- Settles O19: each skips on its comparison of Vx with Vy; in groups 5 and 9 the decoder asks for the digit 0. -/
theorem skipOnRegisters : Obligations.SkipOnRegisters := by
  refine ⟨fun x y s => ⟨toNat_encXYN 0x5#4 x y 0x0#4, toNat_encXYN 0x9#4 x y 0x0#4,
    ⟨_, exec_seReg x y s, advance_skipIf_frame beq_iff_eq s⟩,
    ⟨_, exec_sneReg x y s, advance_skipIf_frame bne_iff_ne s⟩⟩, ?_⟩
  rintro w (group | group) digit <;> simp [decode, group, digit]

/-! ### Skips on a key (R181, R182) -/

section keys

variable {x : RegNum} {s : State}

theorem exec_skp_of_key {k : Nibble} (key : keyOf (s.reg x) = some k) :
    exec (.skp x) s = .next (s.advance.skipIf (s.keyHeld k)) := by
  change execSkp x s = _
  simp only [execSkp, key]

theorem exec_sknp_of_key {k : Nibble} (key : keyOf (s.reg x) = some k) :
    exec (.sknp x) s = .next (s.advance.skipIf (!s.keyHeld k)) := by
  change execSknp x s = _
  simp only [execSknp, key]

theorem exec_skp_halts (outside : keyOf (s.reg x) = none) :
    exec (.skp x) s = .next (s.setHalt (some (keyRecord s.pc (encode (.skp x)) (s.reg x)))) := by
  change execSkp x s = _
  simp only [execSkp, outside, raiseHalt]

theorem exec_sknp_halts (outside : keyOf (s.reg x) = none) :
    exec (.sknp x) s = .next (s.setHalt (some (keyRecord s.pc (encode (.sknp x)) (s.reg x)))) := by
  change execSknp x s = _
  simp only [execSknp, outside, raiseHalt]

end keys

/-- The encoding lines of group E, `0xE0kk | x << 8`. -/
theorem toNat_encXKK_groupE (x : RegNum) (kk : Byte) :
    (encXKK 0xE#4 x kk).toNat = 0xE000 + kk.toNat + x.toNat * 256 := by
  rw [toNat_encXKK, BitVec.toNat_ofNat]
  omega

/-- Settles O37: a byte up to 15 names its key, on which the two skip, and a byte above 15 names none. -/
theorem skipOnKeyOrHalt : Obligations.SkipOnKeyOrHalt := fun x s => by
  refine ⟨toNat_encXKK_groupE x 0x9E#8, toNat_encXKK_groupE x 0xA1#8, fun k index => ?_, fun outside =>
    ⟨exec_skp_halts (keyOf_eq_none outside), exec_sknp_halts (keyOf_eq_none outside)⟩⟩
  have key : keyOf (s.reg x) = some k := keyOf_eq_some index
  exact ⟨⟨_, exec_skp_of_key key, advance_skipIf_frame Iff.rfl s⟩,
    ⟨_, exec_sknp_of_key key, advance_skipIf_frame (Bool.not_eq_true' _).to_iff s⟩⟩

end Sys2Proof.Machine
end

section
/-! SUPPORT. The statements on the legal states (spec/10_state.md R29 to R31, spec/60_exceptions.md R201): reset leaves one,
every step and every host operation keeps it, and a step from one always answers a next state. -/

namespace Sys2Proof.Machine

variable {s t : State} {i : Instr} {r : HaltRecord}

/-- Settles O46: every register is 0 or a constant in range, memory lists nothing, and HALT is empty. -/
theorem resetStateIsLegal : Obligations.ResetStateIsLegal := fun font =>
  { spRange := Nat.zero_le 16
    slotRange := by simp [State.resetWith]
    pcRange := show 0x200 ≤ 0x10FE by decide
    memWf := Memory.wf_reset font
    haltLegal := by simp [State.resetWith]
    haltStack := by simp [State.resetWith] }

/-! ### What the invariant reads -/

/-- The invariant is about SP, PC, the slots, memory and HALT alone. -/
theorem State.Inv.of_eq (inv : s.Inv) (sp : t.sp = s.sp) (pc : t.pc = s.pc) (stack : t.stack = s.stack)
    (halt : t.halt = s.halt) (memWf : t.mem.wf = true) : t.Inv where
  spRange := sp ▸ inv.spRange
  slotRange := stack ▸ inv.slotRange
  pcRange := pc ▸ inv.pcRange
  memWf := memWf
  haltLegal := by rw [halt, pc]; exact inv.haltLegal
  haltStack := by rw [halt, sp]; exact inv.haltStack

/-- Without a halt, four ranges are left of the invariant. -/
theorem State.Inv.of_running (running : t.halt = none) (sp : t.sp.toNat ≤ 16)
    (slots : ∀ k : Fin 16, t.stack[k].toNat ≤ 0x1000) (pc : t.pc.toNat ≤ 0x10FE) (memWf : t.mem.wf = true) : t.Inv where
  spRange := sp
  slotRange := slots
  pcRange := pc
  memWf := memWf
  haltLegal := by simp [running]
  haltStack := by simp [running]

/-! ### Halting steps (R201) -/

/-- What the invariant asks of a record that HALT is to hold. -/
def HaltRecord.Fits (r : HaltRecord) (s : State) : Prop :=
  (r.Legal ∧ r.pc = s.pc) ∧ (r.reason = .stackOverflow → s.sp = 0x10#8) ∧ (r.reason = .stackUnderflow → s.sp = 0x00#8)

theorem outOfBoundsRecord_fits (s : State) (w : Option Word) (base : Nat) : (outOfBoundsRecord s.pc w base).Fits s :=
  ⟨⟨outOfBoundsRecord_legal _ _ _, rfl⟩, nofun, nofun⟩

theorem keyRecord_fits (s : State) (w : Word) {key : Byte} (outside : 0xF < key.toNat) : (keyRecord s.pc w key).Fits s :=
  ⟨⟨keyRecord_legal _ _ outside, rfl⟩, nofun, nofun⟩

/-- The record of every cause fits the state that has the cause. -/
theorem HaltCause.fits (cause : HaltCause s i r) : r.Fits s := by
  cases cause with
  | call nnn full => exact ⟨⟨overflowRecord_legal _ _, rfl⟩, fun _ => full, nofun⟩
  | ret empty => exact ⟨⟨underflowRecord_legal _ _, rfl⟩, nofun, fun _ => empty⟩
  | bcd | storeRegs | loadRegs | drw => exact outOfBoundsRecord_fits s _ _
  | skp x outside | sknp x outside => exact keyRecord_fits s _ outside

theorem inv_setHalt (inv : s.Inv) (fits : r.Fits s) : (s.setHalt (some r)).Inv where
  spRange := inv.spRange
  slotRange := inv.slotRange
  pcRange := inv.pcRange
  memWf := inv.memWf
  haltLegal := fun _ h => Option.some.inj h ▸ fits.1
  haltStack := fun _ h => Option.some.inj h ▸ fits.2

/-! ### Completing steps (R29, R30) -/

/-- The bounds of R29: a skip goes to a + 4 at most, a jump to nnn + V0, a return to a slot. -/
theorem pcAfter_le (inv : s.Inv) (fetched : s.pc.toNat ≤ 0xFFE) : (pcAfter i s).toNat ≤ 0x10FE := by
  have plus2 : (s.pc + 2).toNat ≤ 0x10FE := by bv_omega
  have plus4 : (s.pc + 4).toNat ≤ 0x10FE := by bv_omega
  cases i with
  | jp nnn | call nnn => have := nnn.isLt; simp only [pcAfter, BitVec.toNat_ofNat]; omega
  | jpV0 nnn =>
    have := nnn.isLt
    have := (s.reg 0x0#4).isLt
    simp only [pcAfter, BitVec.toNat_ofNat]; omega
  | ret =>
    by_cases slot : s.sp.toNat - 1 < 16
    · have := inv.slotRange ⟨s.sp.toNat - 1, slot⟩
      simp only [Fin.getElem_fin] at this
      simp only [pcAfter, Vector.getElem?_eq_getElem slot, Option.getD_some]; omega
    · have := inv.spRange; omega
  | seImm x kk | sneImm x kk | seReg x y | sneReg x y | skp x | sknp x | ldVxK x =>
    simp only [pcAfter]; split <;> omega
  | _ => exact plus2

section completing

variable (inv : s.Inv) (ran : exec i s = .next t)
include inv ran

/-- Memory is written by storing bytes or not at all. -/
theorem exec_keeps_memWf : t.mem.wf = true := by
  have wf := inv.memWf
  cases i with
  | ret => obtain ⟨-, rfl⟩ | ⟨_, -, rfl⟩ := execRet_cases ran <;> exact wf
  | call nnn => obtain ⟨-, rfl⟩ | ⟨_, rfl⟩ := execCall_cases ran <;> exact wf
  | skp x => obtain ⟨k, -, rfl⟩ | ⟨-, rfl⟩ := execSkp_cases ran <;> exact wf
  | sknp x => obtain ⟨k, -, rfl⟩ | ⟨-, rfl⟩ := execSknp_cases ran <;> exact wf
  | ldVxK x => obtain ⟨-, rfl⟩ | ⟨k, -, -, rfl⟩ := execLdVxK_cases ran <;> exact wf
  | bcd x | storeRegs x =>
    obtain ⟨-, rfl⟩ | ⟨-, -, rfl⟩ := commitIfInRange_cases ran
    · exact Memory.writeBytes_wf wf _ _
    · exact wf
  | loadRegs x =>
    obtain ⟨-, rfl⟩ | ⟨-, -, rfl⟩ := commitIfInRange_cases ran
    · rw [loaded_eq]; exact wf
    · exact wf
  | drw x y n =>
    obtain ⟨-, rfl⟩ | ⟨-, -, rfl⟩ := commitIfInRange_cases ran
    · rw [drawn_eq]; exact wf
    · exact wf
  | _ => cases Host.Outcome.next.inj ran; exact wf

/-- SP moves within 0..16: a call that pushes finds it below 16, and a return that pops finds it above 0. -/
theorem exec_keeps_spRange : t.sp.toNat ≤ 16 := by
  have range := inv.spRange
  obtain ⟨-, r, rfl⟩ | completed := exec_halts_or_completes ran
  · exact range
  by_cases writes : Writes i .stackPointer
  · obtain ⟨nnn, rfl⟩ | rfl := writes
    · obtain ⟨-, rfl⟩ | ⟨below, rfl⟩ := execCall_cases ran
      · exact range
      · change (s.sp + 1).toNat ≤ 16; bv_omega
    · obtain ⟨-, rfl⟩ | ⟨_, nonzero, rfl⟩ := execRet_cases ran
      · exact range
      · change (s.sp - 1).toNat ≤ 16; bv_omega
  · exact (completed.parts .stackPointer writes).symm ▸ range

variable (fetched : s.pc.toNat ≤ 0xFFE)
include fetched

/-- A pushed slot takes a + 2, which is at most 0x1000. -/
theorem exec_keeps_slotRange (k : Fin 16) : t.stack[k].toNat ≤ 0x1000 := by
  have range := inv.slotRange
  obtain ⟨-, r, rfl⟩ | completed := exec_halts_or_completes ran
  · exact range k
  by_cases writes : Writes i .stackSlots
  · obtain ⟨nnn, rfl⟩ := writes
    obtain ⟨-, rfl⟩ | ⟨below, rfl⟩ := execCall_cases ran
    · exact range k
    · have pushed : (s.pc + 2).toNat ≤ 0x1000 := by bv_omega
      simp only [Fin.getElem_fin, Vector.getElem_set]
      split
      · exact pushed
      · exact range k
  · exact (completed.parts .stackSlots writes k).symm ▸ range k

/-- An instruction of a running core leaves a legal state. -/
theorem exec_keeps_inv (running : s.halt = none) : t.Inv := by
  obtain ⟨-, r, rfl⟩ | completed := exec_halts_or_completes ran
  · exact inv_setHalt inv (haltCause_of_exec running ran rfl).fits
  · have kept : t.halt = none := (completed.parts .haltRegister not_false).trans running
    exact .of_running kept (exec_keeps_spRange inv ran) (exec_keeps_slotRange inv ran fetched)
      (completed.pc ▸ pcAfter_le inv fetched) (exec_keeps_memWf inv ran)

end completing

theorem pc_le_of_fetch {w : Word} (fetched : s.fetch = some w) : s.pc.toNat ≤ 0xFFE := by
  by_contra outside
  rw [s.fetch_eq_none (by omega)] at fetched
  cases fetched

/-- Settles O47: a halted core stays, a failed fetch leaves a fitting record, and a fetched instruction keeps the invariant. -/
theorem stepKeepsLegalStates : Obligations.StepKeepsLegalStates := fun s t inv stepped => by
  obtain ⟨-, rfl⟩ | ⟨-, -, rfl⟩ | ⟨w, running, fetched, ran⟩ := step_cases stepped
  · exact inv
  · exact inv_setHalt inv (outOfBoundsRecord_fits s none _)
  · exact exec_keeps_inv inv ran (pc_le_of_fetch fetched) running

/-- Settles O48: besides reset and the step, a host operation leaves what the invariant reads, but for the bytes of load_rom,
which are written in canonical form. -/
theorem hostOperationsKeepLegalStates : Obligations.HostOperationsKeepLegalStates := fun font op s t a inv ran => by
  cases op with
  | reset => cases ran; exact (resetStateIsLegal font).of_eq rfl rfl rfl rfl (Memory.wf_reset font)
  | step => exact stepKeepsLegalStates s t inv (step_of_hostStep ran)
  | loadRom bytes => cases ran; exact inv.of_eq rfl rfl rfl rfl (Memory.writeBytes_wf inv.memWf _ _)
  | keyDown n | keyUp n => cases eq_setKey_of_keyOp ran; exact inv.of_eq rfl rfl rfl rfl inv.memWf
  | tickTimers | clearDirty => cases ran; exact inv.of_eq rfl rfl rfl rfl inv.memWf
  | readFramebuffer | readDirty | readSoundTimer => cases ran; exact inv

/-! ### No fault and no refusal -/

theorem commitIfInRange_next (s t : State) (w : Word) (base len : Nat) :
    ∃ u, commitIfInRange s w base len t = .next u := by
  by_cases inside : len = 0 ∨ base + len ≤ 0x1000
  · exact ⟨t, commitIfInRange_in s t w inside⟩
  · exact ⟨_, commitIfInRange_out s t w (by omega) (by omega)⟩

theorem exec_ret_next (range : s.sp.toNat ≤ 16) : ∃ t, exec .ret s = .next t := by
  by_cases empty : s.sp = 0x00#8
  · exact ⟨_, exec_ret_empty empty⟩
  · have top : s.sp.toNat = (⟨s.sp.toNat - 1, by omega⟩ : Fin 16).val + 1 := by simp only; bv_omega
    exact ⟨_, exec_ret_pops top⟩

theorem exec_call_next (nnn : Addr12) (range : s.sp.toNat ≤ 16) : ∃ t, exec (.call nnn) s = .next t := by
  by_cases full : s.sp = 0x10#8
  · exact ⟨_, exec_call_full nnn full⟩
  · have below : s.sp.toNat < 16 := by bv_omega
    exact ⟨_, exec_call_pushes nnn below⟩

/-- With SP in range every instruction answers a next state. -/
theorem exec_next (i : Instr) (range : s.sp.toNat ≤ 16) : ∃ t, exec i s = .next t := by
  cases i with
  | ret => exact exec_ret_next range
  | call nnn => exact exec_call_next nnn range
  | bcd x | storeRegs x | loadRegs x | drw x y n => exact commitIfInRange_next s _ _ _ _
  | skp x =>
    cases key : keyOf (s.reg x) with
    | none => exact ⟨_, exec_skp_halts key⟩
    | some k => exact ⟨_, exec_skp_of_key key⟩
  | sknp x =>
    cases key : keyOf (s.reg x) with
    | none => exact ⟨_, exec_sknp_halts key⟩
    | some k => exact ⟨_, exec_sknp_of_key key⟩
  | ldVxK x =>
    obtain ⟨-, released⟩ | ⟨k, -, held, highest⟩ := State.scanKeys_cases s
    · exact ⟨_, exec_ldVxK_of_no_key x released⟩
    · exact ⟨_, exec_ldVxK_of_highest_key held highest x⟩
  | _ => exact ⟨_, rfl⟩

/-- Settles O49: only a call or a return can fault, and only with SP above 16. -/
theorem legalStatesAlwaysStep : Obligations.LegalStatesAlwaysStep := fun s inv => by
  unfold step
  split
  · exact ⟨s, rfl⟩
  · split
    · exact ⟨_, rfl⟩
    · exact exec_next _ inv.spRange

end Sys2Proof.Machine
end

section
/-! SUPPORT. The statements of spec/42_alu.md on the instructions that write VF as the flag (R127 to R131) and on RND (R132),
and of spec/43_index_memory.md on ADD I, Vx (R142). -/

namespace Sys2Proof.Machine

/-! ### A register write and a flag write -/

/-- What a flag write leaves in each register, as a number. -/
theorem State.toNat_setFlag_reg (s : State) (c : Bool) (z : RegNum) :
    ((s.setFlag c).reg z).toNat = if z = VF then (if c then 1 else 0) else (s.reg z).toNat := by
  rw [State.setFlag_reg, apply_ite BitVec.toNat, flagByte_toNat]

/-- A flag written last is what VF holds. -/
theorem State.toNat_setFlag_decide (s : State) (p : Prop) [Decidable p] :
    ((s.setFlag (decide p)).reg VF).toNat = if p then 1 else 0 := by
  simp only [State.toNat_setFlag_reg, if_pos, decide_eq_true_eq]

/-- Where the flag is written first, VF holds it unless it is Vx. -/
theorem State.toNat_flag_of_ne (s : State) (c : Bool) {x : RegNum} (other : x ≠ VF) (b : Byte) :
    (((s.setFlag c).setReg x b).reg VF).toNat = if c then 1 else 0 := by
  rw [State.setReg_reg_of_ne _ other.symm, State.toNat_setFlag_reg, if_pos rfl]

/-- What the advance, the flag and then a write of Vx leave. -/
theorem advance_setFlag_setReg_frame (x : RegNum) (b : Byte) (c : Bool) (s : State) :
    (∀ z, z ≠ x → z ≠ VF → ((s.advance.setFlag c).setReg x b).reg z = s.reg z) ∧
      ((s.advance.setFlag c).setReg x b).pc = s.pc + 2 ∧ KeepsAllBut [.general] s ((s.advance.setFlag c).setReg x b) := by
  refine ⟨fun z other_x other_f => ?_, rfl, by simp [keepsAllBut_iff]⟩
  rw [State.setReg_reg_of_ne _ other_x, State.setFlag_reg, if_neg other_f, State.advance_reg]

/-- What the advance, a write of Vx and then the flag leave. -/
theorem advance_setReg_setFlag_frame (x : RegNum) (b : Byte) (c : Bool) (s : State) :
    (∀ z, z ≠ x → z ≠ VF → ((s.advance.setReg x b).setFlag c).reg z = s.reg z) ∧
      ((s.advance.setReg x b).setFlag c).pc = s.pc + 2 ∧ KeepsAllBut [.general] s ((s.advance.setReg x b).setFlag c) := by
  refine ⟨fun z other_x other_f => ?_, rfl, by simp [keepsAllBut_iff]⟩
  rw [State.setFlag_reg, if_neg other_f, State.setReg_reg_of_ne _ other_x, State.advance_reg]

/-! ### Each meaning, its writes in order (R15) -/

section meanings

variable (x y : RegNum) (kk : Byte) (s : State)

theorem exec_addReg : exec (.addReg x y) s =
    .next ((s.advance.setReg x (s.reg x + s.reg y)).setFlag (carryOut (s.reg x) (s.reg y))) := rfl
theorem exec_subReg : exec (.subReg x y) s =
    .next ((s.advance.setFlag (greaterThan (s.reg x) (s.reg y))).setReg x
      ((s.advance.setFlag (greaterThan (s.reg x) (s.reg y))).reg x -
        (s.advance.setFlag (greaterThan (s.reg x) (s.reg y))).reg y)) := rfl
theorem exec_subnReg : exec (.subnReg x y) s =
    .next ((s.advance.setFlag (greaterThan (s.reg y) (s.reg x))).setReg x
      ((s.advance.setFlag (greaterThan (s.reg y) (s.reg x))).reg y -
        (s.advance.setFlag (greaterThan (s.reg y) (s.reg x))).reg x)) := rfl
theorem exec_shr : exec (.shr x y) s =
    .next ((s.advance.setFlag (shiftedOutRight (s.reg x))).setReg x
      ((s.advance.setFlag (shiftedOutRight (s.reg x))).reg x >>> 1)) := rfl
theorem exec_shl : exec (.shl x y) s =
    .next ((s.advance.setFlag (shiftedOutLeft (s.reg x))).setReg x
      ((s.advance.setFlag (shiftedOutLeft (s.reg x))).reg x <<< 1)) := rfl
theorem exec_rnd : exec (.rnd x kk) s = .next (s.advance.setReg x (Config.randomByte s.draws &&& kk)).countDraw := rfl
theorem exec_addI : exec (.addI x) s =
    .next ((s.advance.setI (s.i + (s.reg x).setWidth 16)).setFlag
      (aboveThreshold (s.i + (s.reg x).setWidth 16))) := rfl

end meanings

/-! ### ADD (R127) -/

/-- Settles O24: the flag is written last, so it is what VF holds, and Vx holds the sum unless it is VF. -/
theorem addSetsCarry : Obligations.AddSetsCarry := fun x y s => by
  refine ⟨toNat_encXYN_group8 x y 0x4#4, _, exec_addReg x y s, State.toNat_setFlag_decide _ _, fun other => ?_,
    advance_setReg_setFlag_frame x _ _ s⟩
  rw [State.setFlag_reg, if_neg other, State.setReg_reg_self, BitVec.toNat_add]

/-! ### SUB and SUBN (R128, R130) -/

theorem toNat_sub_byte (a b : Byte) : (a - b).toNat = (a.toNat + 256 - b.toNat) % 256 := by
  have := b.isLt
  rw [BitVec.toNat_sub]
  congr 1
  omega

/-- A register after the flag of a comparison is written, as a number: VF reads the flag. -/
theorem toNat_reg_after_comparison (a b : Byte) (z : RegNum) (s : State) :
    ((s.advance.setFlag (greaterThan a b)).reg z).toNat =
      if z = VF then (if a.toNat > b.toNat then 1 else 0) else (s.reg z).toNat := by
  simp only [State.toNat_setFlag_reg, greaterThan, decide_eq_true_eq, State.advance_reg]

/-- Settles O25: the flag is written first, and the difference is of the registers after it. -/
theorem subtractionsSetStrictFlag : Obligations.SubtractionsSetStrictFlag := fun x y s => by
  refine ⟨toNat_encXYN_group8 x y 0x5#4, toNat_encXYN_group8 x y 0x7#4,
    ⟨_, exec_subReg x y s, ⟨?_, fun other => ?_⟩, advance_setFlag_setReg_frame x _ _ s⟩,
    ⟨_, exec_subnReg x y s, ⟨?_, fun other => ?_⟩, advance_setFlag_setReg_frame x _ _ s⟩⟩
  · rw [State.setReg_reg_self, toNat_sub_byte, toNat_reg_after_comparison, toNat_reg_after_comparison]
  · simp only [State.toNat_flag_of_ne _ _ other, greaterThan, decide_eq_true_eq]
  · rw [State.setReg_reg_self, toNat_sub_byte, toNat_reg_after_comparison, toNat_reg_after_comparison]
  · simp only [State.toNat_flag_of_ne _ _ other, greaterThan, decide_eq_true_eq]

/-! ### Shifts (R129, R131) -/

/-- The bit that a right shift moves out, as a number. -/
theorem shiftedOutRight_toNat (a : Byte) : (if shiftedOutRight a then 1 else 0) = a.toNat % 2 := by
  rw [shiftedOutRight, BitVec.getLsbD, Nat.testBit_zero]
  rcases Nat.mod_two_eq_zero_or_one a.toNat with h | h <;> simp [h]

/-- The bit that a left shift moves out, as a number. -/
theorem shiftedOutLeft_toNat (a : Byte) : (if shiftedOutLeft a then 1 else 0) = a.toNat / 128 := by
  have bound := a.isLt
  rw [shiftedOutLeft, BitVec.getLsbD, Nat.testBit_eq_decide_div_mod_eq]
  rcases (by omega : a.toNat / 128 = 0 ∨ a.toNat / 128 = 1) with h | h <;> simp [h]

theorem toNat_shiftRight_one (a : Byte) : (a >>> 1).toNat = a.toNat / 2 := by
  rw [BitVec.toNat_ushiftRight, Nat.shiftRight_one]

theorem toNat_shiftLeft_one (a : Byte) : (a <<< 1).toNat = a.toNat * 2 % 256 := by
  rw [BitVec.toNat_shiftLeft, Nat.shiftLeft_eq]

/-- Settles O26: the flag is written first, and the shift is of Vx after it; no register y is read. -/
theorem shiftsMoveVxOnly : Obligations.ShiftsMoveVxOnly := fun x y s => by
  refine ⟨toNat_encXYN_group8 x y 0x6#4, toNat_encXYN_group8 x y 0xE#4,
    ⟨_, exec_shr x y s, ?_, fun other => ?_, advance_setFlag_setReg_frame x _ _ s⟩,
    ⟨_, exec_shl x y s, ?_, fun other => ?_, advance_setFlag_setReg_frame x _ _ s⟩, fun y' => ⟨rfl, rfl⟩⟩
  · rw [State.setReg_reg_self, toNat_shiftRight_one, State.toNat_setFlag_reg, shiftedOutRight_toNat, State.advance_reg]
  · rw [State.toNat_flag_of_ne _ _ other, shiftedOutRight_toNat]
  · rw [State.setReg_reg_self, toNat_shiftLeft_one, State.toNat_setFlag_reg, shiftedOutLeft_toNat, State.advance_reg]
  · rw [State.toNat_flag_of_ne _ _ other, shiftedOutLeft_toNat]

/-! ### RND (R132) -/

/-- Settles O27: one register write of the masked draw, and one more draw counted. -/
theorem randomByteIsMasked : Obligations.RandomByteIsMasked := fun x kk s => by
  have written : (s.advance.setReg x (Config.randomByte s.draws &&& kk)).countDraw.reg x =
      Config.randomByte s.draws &&& kk :=
    State.setReg_reg_self _ x _
  refine ⟨toNat_encXKK 0xC#4 x kk, _, exec_rnd x kk s, written, fun j masked => ?_, fun zero => ?_, rfl,
    fun z other => ?_, rfl, by simp [keepsAllBut_iff]⟩
  · rw [written, BitVec.getLsbD_and, masked, Bool.and_false]
  · rw [written, zero, BitVec.and_zero]
  · rw [State.countDraw_reg, State.setReg_reg_of_ne _ other, State.advance_reg]

/-! ### ADD I, Vx (R142) -/

/-- Settles O29: I takes the sum, and VF the flag of what I then holds. -/
theorem addToIndexSetsThresholdFlag : Obligations.AddToIndexSetsThresholdFlag := fun x s => by
  refine ⟨toNat_encXKK_groupF x 0x1E#8, _, exec_addI x s, ?_, State.toNat_setFlag_decide _ _, fun z other => ?_, rfl,
    by simp [keepsAllBut_iff]⟩
  · rw [State.setFlag_i, State.setI_i, BitVec.toNat_add, BitVec.toNat_setWidth_of_le (by decide)]
  · rw [State.setFlag_reg, if_neg other, State.setI_reg, State.advance_reg]

end Sys2Proof.Machine
end

section
/-! SUPPORT. The statements of spec/20_memory.md and spec/43_index_memory.md on the bytes of memory: what BCD, the register
transfers, load_rom and a placed word write and read, and that the canonical form is one. -/

namespace Sys2Proof.Machine

/-! ### Bytes written one by one -/

section bytes

variable {m : Memory} {a k : Nat} {bs : List Byte}

theorem Memory.read_writeBytes_inside (inside : k < bs.length) (fits : a + k < 0x1000) :
    (m.writeBytes a bs).read (a + k) = bs[k] := by
  have range : a ≤ a + k ∧ a + k < a + bs.length ∧ a + k < 0x1000 := by omega
  rw [Memory.read_writeBytes, dif_pos range]
  simp

theorem Memory.read_writeBytes_outside (outside : k < a ∨ a + bs.length ≤ k ∨ 0xFFF < k) :
    (m.writeBytes a bs).read k = m.read k := by
  have range : ¬ (a ≤ k ∧ k < a + bs.length ∧ k < 0x1000) := by omega
  rw [Memory.read_writeBytes, dif_neg range]

end bytes

/-- What the advance and a store leave: the next instruction's PC, and every part of the state but memory. -/
theorem advance_storeBytes_frame (a : Nat) (bs : List Byte) (s : State) :
    (s.advance.storeBytes a bs).pc = s.pc + 2 ∧ KeepsAllBut [.memory] s (s.advance.storeBytes a bs) :=
  ⟨rfl, by simp [keepsAllBut_iff]⟩

/-! ### The transfers inside memory, and the halt where the range leaves it (R57) -/

section transfers

variable {x : RegNum} {s : State}

theorem exec_bcd_inside (inside : s.base + 3 ≤ 0x1000) :
    exec (.bcd x) s = .next (s.advance.storeBytes s.base (decimalDigits (s.reg x))) :=
  commitIfInRange_in s _ _ (.inr inside)

theorem exec_bcd_halts (outside : 0x1000 < s.base + 3) :
    exec (.bcd x) s = .next (s.setHalt (some (outOfBoundsRecord s.pc (some (encode (.bcd x))) s.base))) :=
  commitIfInRange_out s _ _ (by decide) outside

theorem exec_storeRegs_inside (inside : s.base + (x.toNat + 1) ≤ 0x1000) :
    exec (.storeRegs x) s = .next (s.advance.storeBytes s.base (s.regBytes (x.toNat + 1))) :=
  commitIfInRange_in s _ _ (.inr inside)

theorem exec_storeRegs_halts (outside : 0x1000 < s.base + (x.toNat + 1)) :
    exec (.storeRegs x) s = .next (s.setHalt (some (outOfBoundsRecord s.pc (some (encode (.storeRegs x))) s.base))) :=
  commitIfInRange_out s _ _ (Nat.succ_ne_zero _) outside

theorem exec_loadRegs_inside (inside : s.base + (x.toNat + 1) ≤ 0x1000) :
    exec (.loadRegs x) s = .next (s.advance.loadRegBytes s.base (x.toNat + 1)) :=
  commitIfInRange_in s _ _ (.inr inside)

theorem exec_loadRegs_halts (outside : 0x1000 < s.base + (x.toNat + 1)) :
    exec (.loadRegs x) s = .next (s.setHalt (some (outOfBoundsRecord s.pc (some (encode (.loadRegs x))) s.base))) :=
  commitIfInRange_out s _ _ (Nat.succ_ne_zero _) outside

/-- After Fx55 the byte at I + r is register r. -/
theorem read_stored_reg (inside : s.base + (x.toNat + 1) ≤ 0x1000) {r : RegNum} (stored : r.toNat ≤ x.toNat) :
    (s.advance.storeBytes s.base (s.regBytes (x.toNat + 1))).mem.read (s.base + r.toNat) = s.reg r := by
  have listed : r.toNat < (s.regBytes (x.toNat + 1)).length := by rw [State.regBytes_length]; omega
  rw [State.storeBytes_mem, Memory.read_writeBytes_inside listed (by omega), State.regBytes_getElem, ofNat4_toNat_self]

/-- After Fx65 each register up to x holds the byte at I + r, and the others are as they were. -/
theorem reg_of_loaded (r : RegNum) : (s.advance.loadRegBytes s.base (x.toNat + 1)).reg r =
    if r.toNat ≤ x.toNat then s.mem.read (s.base + r.toNat) else s.reg r := by
  simp only [State.loadRegBytes_reg _ _ _ x.isLt, Nat.lt_succ_iff, State.advance_mem, State.advance_reg]

/-- What the advance and a block load leave: the next instruction's PC, and every part of the state but the registers. -/
theorem advance_loadRegBytes_frame (base n : Nat) :
    (s.advance.loadRegBytes base n).pc = s.pc + 2 ∧ KeepsAllBut [.general] s (s.advance.loadRegBytes base n) := by
  rw [loaded_eq]
  exact ⟨rfl, by simp [keepsAllBut_iff, State.pixel, State.keyHeld]⟩

end transfers

/-! ### The statements on the transfers (R144 to R146) -/

/-- Settles O30: three digits are stored at three addresses, or the range leaves memory. -/
theorem decimalDigitsStoredOrHalt : Obligations.DecimalDigitsStoredOrHalt := fun x s => by
  have base_eq : s.base = s.i.toNat := rfl
  refine ⟨toNat_encXKK_groupF x 0x33#8, fun inside => ?_, fun outside => exec_bcd_halts (by omega)⟩
  have digit : ∀ k (h : k < 3), (s.advance.storeBytes s.base (decimalDigits (s.reg x))).mem.read (s.i.toNat + k) =
      (decimalDigits (s.reg x))[k]'h := fun k h => Memory.read_writeBytes_inside h (by omega)
  refine ⟨_, exec_bcd_inside (by omega), ?_, ?_, ?_, fun a out => ?_, advance_storeBytes_frame _ _ s⟩
  · rw [← Nat.add_zero s.i.toNat, digit 0 (by decide)]
    exact BitVec.toNat_udiv
  · rw [digit 1 (by decide)]
    exact BitVec.toNat_umod.trans (congrArg (· % 10) BitVec.toNat_udiv)
  · rw [digit 2 (by decide)]
    exact BitVec.toNat_umod
  · exact Memory.read_writeBytes_outside (by simp only [decimalDigits, List.length_cons, List.length_nil]; omega)

/-- Settles O31: the bytes of V0..Vx are stored from I upward, or the range leaves memory. -/
theorem registersStoredOrHalt : Obligations.RegistersStoredOrHalt := fun x s => by
  have base_eq : s.base = s.i.toNat := rfl
  refine ⟨toNat_encXKK_groupF x 0x55#8, fun inside => ?_, fun outside => exec_storeRegs_halts (by omega)⟩
  refine ⟨_, exec_storeRegs_inside (by omega), fun r stored => read_stored_reg (by omega) stored, fun a out => ?_,
    advance_storeBytes_frame _ _ s⟩
  exact Memory.read_writeBytes_outside (by rw [State.regBytes_length]; omega)

/-- Settles O32: the registers up to x are loaded from I upward, or the range leaves memory. -/
theorem registersLoadedOrHalt : Obligations.RegistersLoadedOrHalt := fun x s => by
  have base_eq : s.base = s.i.toNat := rfl
  exact ⟨toNat_encXKK_groupF x 0x65#8,
    fun inside => ⟨_, exec_loadRegs_inside (by omega), reg_of_loaded, advance_loadRegBytes_frame _ _⟩,
    fun outside => exec_loadRegs_halts (by omega)⟩

/-- Settles O51: the load reads the addresses that the store wrote. -/
theorem storeThenLoadBringsRegistersBack : Obligations.StoreThenLoadBringsRegistersBack := fun x s range => by
  have inside : s.base + (x.toNat + 1) ≤ 0x1000 := Nat.add_le_add_right range 1
  refine ⟨_, exec_storeRegs_inside inside, fun u same_i same_mem => ?_⟩
  have same_base : u.base = s.base := congrArg BitVec.toNat same_i
  refine ⟨_, exec_loadRegs_inside (same_base ▸ inside), fun r stored => ?_⟩
  rw [reg_of_loaded, if_pos stored, same_mem, same_base, read_stored_reg inside stored]

/-- Settles O53: I = a + 2 is where the next fetch reads, and it finds V0 and V1 stored there. -/
theorem storedCodeRunsNext : Obligations.StoredCodeRunsNext := fun x s running atLeastOne range atNext => by
  have inside : s.base + (x.toNat + 1) ≤ 0x1000 := Nat.add_le_add_right range 1
  refine ⟨_, exec_storeRegs_inside inside, fun w word => step_eq_exec_of_fetch running ?_⟩
  have next_pc : (s.advance.storeBytes s.base (s.regBytes (x.toNat + 1))).pc = s.i := atNext.symm
  have byte0 := read_stored_reg inside (r := 0x0#4) (Nat.zero_le _)
  have byte1 := read_stored_reg inside (r := 0x1#4) atLeastOne
  apply State.fetch_eq_of_toNat
  · rw [next_pc]; omega
  · rw [next_pc, word, ← byte0, ← byte1]; rfl

/-! ### A placed word (log entry 8) -/

theorem State.withFetchWord_eq (s : State) (w : Word) (fits : s.pc.toNat ≤ 0xFFE) :
    s.withFetchWord 16 w.toNat = (s.storeBytes s.pc.toNat [hiByte w, loByte w]).setHalt none := by
  have range : rangeExists s.pc.toNat 2 = true := (rangeExists_iff _ _).mpr (by omega)
  have word : BitVec.ofNat 16 (w.toNat % 2 ^ 16) = w := by
    rw [Nat.mod_eq_of_lt w.isLt, BitVec.ofNat_toNat, BitVec.setWidth_eq]
  rw [State.withFetchWord, word, State.placeWord, if_pos range]

/-- Settles O9: the fetch reads the two bytes that were stored, and puts them together again. -/
theorem placedWordIsRunNext : Obligations.PlacedWordIsRunNext := fun s w fits => by
  rw [s.withFetchWord_eq w fits]
  refine ⟨step_eq_exec_of_fetch rfl ?_, by simp [keepsAllBut_iff], rfl, fun a other0 other1 => ?_⟩
  · have byte0 : (s.mem.writeBytes s.pc.toNat [hiByte w, loByte w]).read s.pc.toNat = hiByte w :=
      Memory.read_writeBytes_inside (k := 0) (by simp) (by omega)
    have byte1 : (s.mem.writeBytes s.pc.toNat [hiByte w, loByte w]).read (s.pc.toNat + 1) = loByte w :=
      Memory.read_writeBytes_inside (k := 1) (by simp) (by omega)
    have placed_fits : ((s.storeBytes s.pc.toNat [hiByte w, loByte w]).setHalt none).pc.toNat ≤ 0xFFE := fits
    rw [State.fetch_eq_some _ placed_fits]
    simp only [State.setHalt_pc, State.setHalt_mem, State.storeBytes_pc, State.storeBytes_mem, byte0, byte1,
      wordOfBytes_bytes]
  · exact Memory.read_writeBytes_outside (by simp only [List.length_cons, List.length_nil]; omega)

/-! ### load_rom (R242) -/

/-- Settles O58: load_rom stores its bytes from 0x200, and memory drops those above 0xFFF. -/
theorem romIsCopiedFrom0x200 : Obligations.RomIsCopiedFrom0x200 := fun font s bytes =>
  ⟨s.loadRom bytes, rfl, fun k listed fits => Memory.read_writeBytes_inside listed (show 0x200 + k < 0x1000 by omega),
    fun _ outside => Memory.read_writeBytes_outside outside, rfl, by simp [keepsAllBut_iff, State.loadRom]⟩

/-! ### The canonical form (log entry 9) -/

/-- In a list that rises by address, a cell is listed just when a lookup of its address finds its byte. -/
theorem mem_iff_lookup {cells : List Host.Cell} (rising : cells.Pairwise (fun c d => c.1 < d.1)) (c : Host.Cell) :
    c ∈ cells ↔ cells.lookup c.1 = some c.2 := by
  induction cells with
  | nil => simp
  | cons d cs ih =>
    obtain ⟨above, rest⟩ := List.pairwise_cons.mp rising
    rw [List.mem_cons, lookup_cons_cell, ih rest]
    by_cases here : c.1 = d.1
    · have absent : ¬ cs.lookup c.1 = some c.2 := fun found => (above c ((ih rest).mpr found)).ne here.symm
      rw [if_pos here, or_iff_left absent, Prod.ext_iff, and_iff_right here, Option.some_inj, eq_comm]
    · have other : ¬ c = d := fun h => here (congrArg Prod.fst h)
      rw [if_neg here, or_iff_right other]

/-- In the canonical form a lookup is a matter of reads: an address is listed just when it reads as something else than an
unlisted one. -/
theorem Memory.lookup_eq_of_wf {m : Memory} (wf : m.wf = true) (a : Nat) :
    m.cells.lookup a = if m.read a = m.unlisted a then none else some (m.read a) := by
  obtain ⟨rising, differ⟩ := m.wf_iff.mp wf
  cases found : m.cells.lookup a with
  | none => simp [Memory.read, found]
  | some v =>
    have listed : (a, v) ∈ m.cells := (mem_iff_lookup rising (a, v)).mpr found
    have unlike : v ≠ m.unlisted a := (differ _ listed).2
    simp [Memory.read, found, unlike]

/-- Settles O50: equal reads give equal lookups, so the same cells are listed, and both lists rise by address. -/
theorem equalReadsMeanEqualMemory : Obligations.EqualReadsMeanEqualMemory := fun m m' wf wf' font reads => by
  have unlisted : ∀ a, m.unlisted a = m'.unlisted a := fun a => by rw [Memory.unlisted, Memory.unlisted, font]
  have lookups : ∀ a, m.cells.lookup a = m'.cells.lookup a := fun a => by
    rw [Memory.lookup_eq_of_wf wf, Memory.lookup_eq_of_wf wf', reads, unlisted]
  have rising := (m.wf_iff.mp wf).1
  have rising' := (m'.wf_iff.mp wf').1
  have same_cells : ∀ c, c ∈ m.cells ↔ c ∈ m'.cells := fun c => by
    rw [mem_iff_lookup rising, mem_iff_lookup rising', lookups]
  have irrefl : Std.Irrefl (fun c d : Host.Cell => c.1 < d.1) := ⟨fun c => lt_irrefl c.1⟩
  have antisymm : Std.Antisymm (fun c d : Host.Cell => c.1 < d.1) := ⟨fun _ _ h h' => absurd h' h.asymm⟩
  exact congrArg₂ Memory.mk font (rising.eq_of_mem_iff rising' same_cells)

end Sys2Proof.Machine
end

section
/-! SUPPORT. The statements on the whole machine: the halted core and the precise halt (spec/40_step.md R90, R91, R94), the
writers of VF and of PC (spec/10_state.md R27, R39), and what no instruction reads (R33, R36). -/

namespace Sys2Proof.Machine

variable {s t u t' : State} {i : Instr} {r : HaltRecord}

/-! ### Halts (R90, R91, R94) -/

theorem step_of_halted (halted : s.halt = some r) : step s = .next s := by
  simp only [step, halted]

/-- No host operation but reset writes HALT on a halted core. -/
theorem runHostOp_keeps_halt {font : Font} {op : HostOp} {a : Response} (halted : s.halt = some r) (other : op ≠ .reset)
    (ran : runHostOp font op s = .next (t, a)) : t.halt = s.halt := by
  cases op with
  | reset => exact absurd rfl other
  | step => cases (step_of_halted halted).symm.trans (step_of_hostStep ran); rfl
  | keyDown n | keyUp n => cases eq_setKey_of_keyOp ran; rfl
  | loadRom bytes | tickTimers | clearDirty | readFramebuffer | readDirty | readSoundTimer => cases ran; rfl

/-- The host's step, from what the core's step leaves. -/
theorem hostStep_of_step (stepped : step s = .next t) : hostStep s = .next (t, .stepped (stepOutcome s t)) := by
  simp only [hostStep, stepped]

/-- Settles O10: the step answers the state it was given, whose record is the outcome. -/
theorem haltedCoreStaysHalted : Obligations.HaltedCoreStaysHalted := fun font s r halted => by
  refine ⟨?_, fun op t a other ran => (runHostOp_keeps_halt halted other ran).trans halted⟩
  change hostStep s = _
  rw [hostStep_of_step (step_of_halted halted), stepOutcome_of_halted halted]

/-- Settles O11: the failed fetch halts, and the record is the outcome. -/
theorem fetchOutsideMemoryHalts : Obligations.FetchOutsideMemoryHalts := fun _ s running outside => by
  change hostStep s = .next (s.setHalt (some (outOfBoundsRecord s.pc none s.pc.toNat)), _)
  rw [hostStep_of_step (step_outside_memory running outside), stepOutcome_of_halted (State.setHalt_halt s _)]
  rfl

/-- Settles O40: on a running core either the fetch halts, or the instruction has a cause to; it does not complete, since that
keeps HALT empty. -/
theorem haltsArePrecise : Obligations.HaltsArePrecise := fun s t r running stepped halted => by
  obtain ⟨already, -⟩ | ⟨-, -, rfl⟩ | ⟨w, -, -, ran⟩ := step_cases stepped
  · exact absurd running already
  · cases Option.some.inj halted
    exact ⟨rfl, rfl⟩
  · have fits := (haltCause_of_exec running ran halted).fits
    obtain ⟨-, r', rfl⟩ | completed := exec_halts_or_completes ran
    · cases Option.some.inj halted
      exact ⟨rfl, fits.1.2⟩
    · have kept : t.halt = s.halt := completed.parts .haltRegister not_false
      cases (kept.trans running).symm.trans halted

/-! ### VF and PC (R27, R39) -/

/-- Settles O43: the rows of `WritesReg` that allow VF. -/
theorem flagHasItsWriters : Obligations.FlagHasItsWriters := fun i s t ran changed => by
  obtain ⟨-, r, rfl⟩ | completed := exec_halts_or_completes ran
  · exact absurd rfl changed
  · have writes : WritesReg i VF := not_imp_comm.mp (completed.regs VF) changed
    cases i with
    | loadRegs x =>
      have last : x = VF := by
        have bound := x.isLt
        have all : 15 ≤ x.toNat := writes
        bv_omega
      simp [last]
    | ldImm x | addImm x | ldReg x | orReg x | andReg x | xorReg x | rnd x | ldVxDt x | ldVxK x =>
      cases (writes : VF = x)
      simp
    | addReg | subReg | shr | subnReg | shl | drw | addI => simp
    | _ => exact writes.elim

/-- Settles O44: a halt keeps PC, and completing leaves it as `Completes` says. -/
theorem everyInstructionLeavesPcAsTabled : Obligations.EveryInstructionLeavesPcAsTabled := fun i s t running ran => by
  obtain ⟨-, r, rfl⟩ | completed := exec_halts_or_completes ran
  · exact ⟨nofun, fun _ => rfl⟩
  · have kept : t.halt = none := (completed.parts .haltRegister not_false).trans running
    exact ⟨fun _ => completed.pc, fun halted => absurd kept halted⟩

/-! ### What no instruction reads (R33, R36) -/

/-- The state with other values in the two parts that no instruction reads. -/
def State.withUnread (s : State) (d : Bool) (b : Byte) : State := { s with dirty := d, st := b }

/-- Two states differ in DIRTY and ST alone. -/
def AgreeButUnread (t' t : State) : Prop := { t' with dirty := t.dirty, st := t.st } = t

section unread

variable (d : Bool) (b : Byte)

theorem agreeButUnread_withUnread (s : State) : AgreeButUnread (s.withUnread d b) s := rfl

theorem loadRegBytes_withUnread (s : State) (base n : Nat) :
    (s.withUnread d b).loadRegBytes base n = (s.loadRegBytes base n).withUnread d b := by
  induction n with
  | zero => rfl
  | succ k ih => rw [State.loadRegBytes, ih]; rfl

theorem drawRow_withUnread (x y : RegNum) (s : State) (k : Nat) :
    drawRow x y (s.withUnread d b) k = (drawRow x y s k).withUnread d b :=
  List.foldl_hom (State.withUnread · d b) fun _ _ => rfl

theorem drawSprite_withUnread (x y : RegNum) (n : Nat) (s : State) :
    drawSprite x y n (s.withUnread d b) = (drawSprite x y n s).withUnread d b :=
  List.foldl_hom (State.withUnread · d b) fun s k => drawRow_withUnread d b x y s k

/-- The check of a range, and the halt that it may end in, read neither part. -/
theorem commitIfInRange_unread {w : Word} {base len : Nat} (ran : commitIfInRange s w base len t = .next u)
    (agree : AgreeButUnread t' t) :
    ∃ u', commitIfInRange (s.withUnread d b) w base len t' = .next u' ∧ AgreeButUnread u' u := by
  obtain ⟨inside, rfl⟩ | ⟨nonempty, outside, rfl⟩ := commitIfInRange_cases ran
  · exact ⟨t', commitIfInRange_in _ _ _ inside, agree⟩
  · exact ⟨_, commitIfInRange_out _ _ _ nonempty outside, rfl⟩

/-- Every instruction leaves the same in the other parts, whatever DIRTY and ST hold. -/
theorem exec_unread (ran : exec i s = .next t) :
    ∃ t', exec i (s.withUnread d b) = .next t' ∧ AgreeButUnread t' t := by
  cases i with
  | ret =>
    obtain ⟨empty, rfl⟩ | ⟨slot, nonempty, rfl⟩ := execRet_cases ran
    · exact ⟨_, exec_ret_empty empty, rfl⟩
    · have top : s.sp.toNat = (⟨s.sp.toNat - 1, slot⟩ : Fin 16).val + 1 := by simp only; bv_omega
      exact ⟨_, exec_ret_pops (s := s.withUnread d b) top, rfl⟩
  | call nnn =>
    obtain ⟨full, rfl⟩ | ⟨below, rfl⟩ := execCall_cases ran
    · exact ⟨_, exec_call_full nnn full, rfl⟩
    · exact ⟨_, exec_call_pushes (s := s.withUnread d b) nnn below, rfl⟩
  | skp x =>
    obtain ⟨k, key, rfl⟩ | ⟨outside, rfl⟩ := execSkp_cases ran
    · exact ⟨_, exec_skp_of_key (s := s.withUnread d b) key, rfl⟩
    · exact ⟨_, exec_skp_halts (s := s.withUnread d b) (keyOf_eq_none outside), rfl⟩
  | sknp x =>
    obtain ⟨k, key, rfl⟩ | ⟨outside, rfl⟩ := execSknp_cases ran
    · exact ⟨_, exec_sknp_of_key (s := s.withUnread d b) key, rfl⟩
    · exact ⟨_, exec_sknp_halts (s := s.withUnread d b) (keyOf_eq_none outside), rfl⟩
  | ldVxK x =>
    obtain ⟨released, rfl⟩ | ⟨k, held, highest, rfl⟩ := execLdVxK_cases ran
    · exact ⟨_, exec_ldVxK_of_no_key (s := t.withUnread d b) x released, rfl⟩
    · exact ⟨_, exec_ldVxK_of_highest_key (s := s.withUnread d b) held highest x, rfl⟩
  | bcd x | storeRegs x => exact commitIfInRange_unread d b ran rfl
  | loadRegs x =>
    refine commitIfInRange_unread d b ran ?_
    exact (loadRegBytes_withUnread d b s.advance _ _).symm ▸ agreeButUnread_withUnread d b _
  | drw x y n =>
    refine commitIfInRange_unread d b ran ?_
    exact congrArg State.markDirty (drawSprite_withUnread d b x y _ (s.advance.setReg VF 0x00#8)) ▸ rfl
  | _ => cases Host.Outcome.next.inj ran; exact ⟨_, rfl, rfl⟩

end unread

/-- Settles O45, by `exec_unread`. -/
theorem dirtyAndSoundTimerAreNeverRead : Obligations.DirtyAndSoundTimerAreNeverRead := fun _ _ _ d b ran =>
  exec_unread d b ran

end Sys2Proof.Machine
end

section
/-! SUPPORT. The statements of spec/60_exceptions.md and spec/70_reset_and_hazards.md on the host's operations: reset, the
tick, the key operations and the reads (R210, R222 to R227, R240, R241). -/

namespace Sys2Proof.Machine

/-- Settles O55: each operation is one case of `hostOp`. -/
theorem resetComesFirst : Obligations.ResetComesFirst := fun font => by
  refine ⟨rfl, fun s => rfl, fun op other => ?_⟩
  cases op with
  | reset => exact absurd rfl other
  | _ => rfl

/-- Settles O60: each read is one case of `runHostOp`. -/
theorem readsReturnTheStateUnchanged : Obligations.ReadsReturnTheStateUnchanged := fun _ s =>
  ⟨⟨s.fb, rfl, fun _ _ => rfl⟩, rfl, rfl⟩

/-- A timer counts down to 0 and stays there, as subtraction of natural numbers does. -/
theorem toNat_tick (b : Byte) : (if b = 0x00#8 then b else b - 1).toNat = b.toNat - 1 := by
  split
  next zero => simp [zero]
  next nonzero => bv_omega

/-- Settles O56: one write of each timer. -/
theorem tickCountsTimersDown : Obligations.TickCountsTimersDown := fun _ s =>
  ⟨s.tickTimers, rfl, toNat_tick s.dt, toNat_tick s.st, rfl, by simp [keepsAllBut_iff]⟩

/-- A key operation on a key of the interface is one write of its cell. -/
theorem keyOp_inside (s : State) (k : Nibble) (held : Bool) :
    keyOp s k.toNat held = .next (s.setKey k.toNat held, .none) ∧ (s.setKey k.toNat held).keyHeld k = held ∧
      (∀ j, j ≠ k → (s.setKey k.toNat held).keyHeld j = s.keyHeld j) ∧ (s.setKey k.toNat held).pc = s.pc ∧
      KeepsAllBut [.keypad] s (s.setKey k.toNat held) := by
  refine ⟨if_pos k.isLt, ?_, fun j other => ?_, rfl, by simp [keepsAllBut_iff]⟩
  · rw [State.setKey_keyHeld, if_pos rfl]
  · rw [State.setKey_keyHeld, if_neg fun same => other (BitVec.eq_of_toNat_eq same)]

/-- Settles O57: the two operations differ in the value that they write. -/
theorem keyOperationsSetOneCell : Obligations.KeyOperationsSetOneCell := fun _ s =>
  ⟨fun k => ⟨_, keyOp_inside s k true⟩, fun k => ⟨_, keyOp_inside s k false⟩,
    fun _ outside => ⟨if_neg outside.not_gt, if_neg outside.not_gt⟩⟩

end Sys2Proof.Machine
end

section
/-! SUPPORT. The statements of spec/44_display.md on DRW (R162, R163): the loops of the model are the ordered pixel writes of
`drawTrace`, and where no coordinate register is VF those writes are a toggle of the covered pixels. -/

namespace Sys2Proof.Machine

variable {s t u : State} {x y : RegNum} {k n : Nat} {px : Fin 64} {py : Fin 32}

/-! ### The loops are the trace -/

/-- `u` is reached from `s` by the first `k` pixel writes of a draw: VF and the screen are the trace's, and what the writes to
come read is as it was. -/
structure Traces (s : State) (x y : RegNum) (k : Nat) (u : State) : Prop where
  flag : u.reg VF = (drawTrace s x y k).1
  screen : ∀ px py, u.pixel px py = (drawTrace s x y k).2 px py
  regs : ∀ z, z ≠ VF → u.reg z = s.reg z
  mem : u.mem = s.mem
  index : u.i = s.i

theorem traces_zero (s : State) (x y : RegNum) : Traces s x y 0 (s.advance.setReg VF 0x00#8) :=
  ⟨State.setReg_reg_self _ VF _, fun _ _ => rfl, fun _ other => State.setReg_reg_of_ne _ other _, rfl, rfl⟩

/-- A coordinate register reads the VF of the trace where it is VF. -/
theorem Traces.reg_eq (traces : Traces s x y k u) (z : RegNum) :
    u.reg z = if z = VF then (drawTrace s x y k).1 else s.reg z := by
  split
  next is_flag => rw [is_flag, traces.flag]
  next other => exact traces.regs z other

theorem or_flagByte (b : Byte) (c : Bool) : b ||| flagByte c = if c then b ||| 0x01#8 else b := by
  cases c
  · exact BitVec.or_zero
  · rfl

/-- The pixel at row `r`, column `c` is write 8 * r + c. -/
theorem Traces.drawPixel {r c : Nat} (column : c < 8) (traces : Traces s x y (8 * r + c) u) :
    Traces s x y (8 * r + c + 1) (drawPixel x y (s.mem.read (s.i.toNat + r)) r u c) := by
  have div : (8 * r + c) / 8 = r := by omega
  have mod : (8 * r + c) % 8 = c := by omega
  refine ⟨?_, fun qx qy => ?_, fun z other => ?_, traces.mem, traces.index⟩
  · simp only [Machine.drawPixel, State.setPixel_reg, State.orFlag_reg, if_pos, or_flagByte, traces.flag, traces.screen,
      traces.reg_eq x, traces.reg_eq y, drawTrace, div, mod, columnOf, rowOf, spriteBit]
  · simp only [Machine.drawPixel, State.setPixel_pixel, State.orFlag_pixel, traces.screen, traces.reg_eq x, traces.reg_eq y,
      drawTrace, div, mod, columnOf, rowOf, spriteBit]
  · rw [drawPixel_reg_of_ne x y _ r u c other, traces.regs z other]

/-- The first `c` columns of row `r`. -/
theorem Traces.drawColumns {r c : Nat} (columns : c ≤ 8) (traces : Traces s x y (8 * r) u) :
    Traces s x y (8 * r + c) ((List.range c).foldl (Machine.drawPixel x y (s.mem.read (s.i.toNat + r)) r) u) := by
  induction c with
  | zero => exact traces
  | succ c ih =>
    rw [List.range_succ, List.foldl_append]
    exact (ih (by omega)).drawPixel (by omega)

theorem Traces.drawRow {r : Nat} (traces : Traces s x y (8 * r) u) : Traces s x y (8 * (r + 1)) (drawRow x y u r) := by
  have row_byte : u.mem.read (u.base + r) = s.mem.read (s.i.toNat + r) := by rw [State.base, traces.mem, traces.index]
  rw [Machine.drawRow, row_byte, Nat.mul_succ]
  exact traces.drawColumns (c := 8) le_rfl

theorem drawSprite_succ (x y : RegNum) (n : Nat) (s : State) :
    drawSprite x y (n + 1) s = drawRow x y (drawSprite x y n s) n := by
  simp only [drawSprite, List.range_succ, List.foldl_append, List.foldl_cons, List.foldl_nil]

/-- The rows are the trace's writes, eight a row. -/
theorem traces_drawSprite (s : State) (x y : RegNum) (n : Nat) :
    Traces s x y (8 * n) (drawSprite x y n (s.advance.setReg VF 0x00#8)) := by
  induction n with
  | zero => exact traces_zero s x y
  | succ n ih =>
    rw [drawSprite_succ]
    exact ih.drawRow

/-! ### DRW (R162) -/

theorem exec_drw_inside {n : Nibble} (inside : n = 0x0#4 ∨ s.i.toNat + n.toNat - 1 ≤ 0xFFF) :
    exec (.drw x y n) s = .next (drawSprite x y n.toNat (s.advance.setReg VF 0x00#8)).markDirty := by
  have base_eq : s.base = s.i.toNat := rfl
  exact commitIfInRange_in s _ _ (by bv_omega)

/-- What a draw leaves besides VF, the screen and DIRTY, which it sets. -/
theorem drawn_frame (x y : RegNum) (n : Nibble) (s : State) :
    (drawSprite x y n.toNat (s.advance.setReg VF 0x00#8)).markDirty.dirty = true ∧
      KeepsRegsBut VF s (drawSprite x y n.toNat (s.advance.setReg VF 0x00#8)).markDirty ∧
      (drawSprite x y n.toNat (s.advance.setReg VF 0x00#8)).markDirty.pc = s.pc + 2 ∧
      KeepsAllBut [.general, .framebuffer, .dirtyFlag] s
        (drawSprite x y n.toNat (s.advance.setReg VF 0x00#8)).markDirty := by
  have completed := completes_drw x y n s
  refine ⟨rfl, completed.regs, completed.pc, fun c unlisted => completed.parts c ?_⟩
  cases c <;> simp at unlisted ⊢

/-- Settles O35: the model's loops make the writes of `drawTrace` in its order, or the range leaves memory. -/
theorem drawIsTheOrderedPixelWrites : Obligations.DrawIsTheOrderedPixelWrites := fun x y n s => by
  have base_eq : s.base = s.i.toNat := rfl
  have traces := traces_drawSprite s x y n.toNat
  exact ⟨toNat_encXYN 0xD#4 x y n,
    fun inside => ⟨_, exec_drw_inside inside, traces.flag, traces.screen, drawn_frame x y n s⟩,
    fun rows outside => commitIfInRange_out s _ _ (by bv_omega) (by omega)⟩

/-! ### Coordinate registers other than VF (R163) -/

/-- The screen column of write `j`, where Vx is not VF. -/
def writeColumn (s : State) (x : RegNum) (j : Nat) : Fin 64 := Fin.ofNat 64 ((s.reg x).toNat + j % 8)

/-- The screen row of write `j`, where Vy is not VF. -/
def writeRow (s : State) (y : RegNum) (j : Nat) : Fin 32 := Fin.ofNat 32 ((s.reg y).toNat + j / 8)

/-- The sprite bit of write `j`. -/
def writeBit (s : State) (j : Nat) : Bool := (s.mem.read (s.i.toNat + j / 8)).getLsbD (7 - j % 8)

/-- One of the first `k` writes has a sprite bit 1 and falls on the pixel. -/
def CoveredBefore (s : State) (x y : RegNum) (k : Nat) (px : Fin 64) (py : Fin 32) : Prop :=
  ∃ j < k, px = writeColumn s x j ∧ py = writeRow s y j ∧ writeBit s j = true

/-- One of the first `k` writes has a sprite bit 1 and falls on a pixel that was 1 before the draw. -/
def HitBefore (s : State) (x y : RegNum) (k : Nat) : Prop :=
  ∃ j < k, writeBit s j = true ∧ s.pixel (writeColumn s x j) (writeRow s y j) = true

theorem coveredBefore_succ : CoveredBefore s x y (k + 1) px py ↔
    CoveredBefore s x y k px py ∨ px = writeColumn s x k ∧ py = writeRow s y k ∧ writeBit s k = true :=
  Nat.exists_lt_succ_right

theorem hitBefore_succ : HitBefore s x y (k + 1) ↔
    HitBefore s x y k ∨ writeBit s k = true ∧ s.pixel (writeColumn s x k) (writeRow s y k) = true :=
  Nat.exists_lt_succ_right

theorem hitBefore_iff : HitBefore s x y k ↔ ∃ px py, CoveredBefore s x y k px py ∧ s.pixel px py = true := by
  constructor
  · rintro ⟨j, before, bit, pixel⟩
    exact ⟨_, _, ⟨j, before, rfl, rfl, bit⟩, pixel⟩
  · rintro ⟨_, _, ⟨j, before, rfl, rfl, bit⟩, pixel⟩
    exact ⟨j, before, bit, pixel⟩

/-- The writes of a sprite of `n` rows are those of its rows and columns. -/
theorem spriteCovers_iff : SpriteCovers s x y n px py ↔ CoveredBefore s x y (8 * n) px py := by
  constructor
  · rintro ⟨r, c, row, column, hx, hy, bit⟩
    have div : (8 * r + c) / 8 = r := by omega
    have mod : (8 * r + c) % 8 = c := by omega
    refine ⟨8 * r + c, by omega, Fin.ext ?_, Fin.ext ?_, ?_⟩
    · rw [writeColumn, mod]; exact hx
    · rw [writeRow, div]; exact hy
    · rw [writeBit, div, mod]; exact bit
  · rintro ⟨j, bound, hx, hy, bit⟩
    exact ⟨j / 8, j % 8, by omega, by omega, congrArg Fin.val hx, congrArg Fin.val hy, bit⟩

/-- No pixel is written twice: a sprite is at most 8 wide and, with at most 256 writes, at most 32 high. -/
theorem not_coveredBefore_self (bound : k < 256) : ¬ CoveredBefore s x y k (writeColumn s x k) (writeRow s y k) := by
  rintro ⟨j, before, hx, hy, -⟩
  have column : ((s.reg x).toNat + k % 8) % 64 = ((s.reg x).toNat + j % 8) % 64 := congrArg Fin.val hx
  have row : ((s.reg y).toNat + k / 8) % 32 = ((s.reg y).toNat + j / 8) % 32 := congrArg Fin.val hy
  omega

section apart

variable (x_other : x ≠ VF) (y_other : y ≠ VF)
include x_other y_other

/-- One write of the trace, in the coordinates that no write changes. -/
theorem drawTrace_succ : drawTrace s x y (k + 1) =
    (if writeBit s k && (drawTrace s x y k).2 (writeColumn s x k) (writeRow s y k) then (drawTrace s x y k).1 ||| 0x01#8
      else (drawTrace s x y k).1,
      fun qx qy => if qx = writeColumn s x k ∧ qy = writeRow s y k then
        xor ((drawTrace s x y k).2 (writeColumn s x k) (writeRow s y k)) (writeBit s k)
      else (drawTrace s x y k).2 qx qy) := by
  simp only [drawTrace, if_neg x_other, if_neg y_other]
  rfl

/-- The trace so far toggled the covered pixels, and no others. -/
theorem drawTrace_toggles (bound : k ≤ 256) (px : Fin 64) (py : Fin 32) :
    (drawTrace s x y k).2 px py ≠ s.pixel px py ↔ CoveredBefore s x y k px py := by
  induction k generalizing px py with
  | zero => simp [drawTrace, CoveredBefore]
  | succ k ih =>
    have ih := ih (by omega)
    rw [coveredBefore_succ, drawTrace_succ x_other y_other]
    by_cases here : px = writeColumn s x k ∧ py = writeRow s y k
    · obtain ⟨rfl, rfl⟩ := here
      have uncovered := not_coveredBefore_self (s := s) (x := x) (y := y) (k := k) (by omega)
      have untouched := not_not.mp (mt (ih _ _).mp uncovered)
      simp only [untouched, uncovered, and_self, if_true, true_and, false_or]
      cases s.pixel (writeColumn s x k) (writeRow s y k) <;> simp
    · have uncovered : ¬ (px = writeColumn s x k ∧ py = writeRow s y k ∧ writeBit s k = true) :=
        fun ⟨hx, hy, _⟩ => here ⟨hx, hy⟩
      rw [or_iff_left uncovered, ← ih]
      simp only [if_neg here]

/-- A write finds its pixel as it was before the draw. -/
theorem drawTrace_untouched (bound : k < 256) :
    (drawTrace s x y k).2 (writeColumn s x k) (writeRow s y k) = s.pixel (writeColumn s x k) (writeRow s y k) :=
  not_not.mp (mt (drawTrace_toggles x_other y_other bound.le _ _).mp (not_coveredBefore_self bound))

open Classical in
/-- VF so far is whether a covered pixel was 1 before the draw. -/
theorem drawTrace_flag (bound : k ≤ 256) : (drawTrace s x y k).1 = if HitBefore s x y k then 0x01#8 else 0x00#8 := by
  induction k with
  | zero => simp [drawTrace, HitBefore]
  | succ k ih =>
    rw [drawTrace_succ x_other y_other, hitBefore_succ]
    simp only [drawTrace_untouched x_other y_other (show k < 256 by omega), ih (by omega), Bool.and_eq_true]
    by_cases hit : HitBefore s x y k <;> simp [hit]

end apart

/-- Settles O34: the trace of a draw, read off at its end. -/
theorem drawTogglesCoveredPixels : Obligations.DrawTogglesCoveredPixels := fun x y n s x_other y_other inside => by
  have traces := traces_drawSprite s x y n.toNat
  have bound : 8 * n.toNat ≤ 256 := by have := n.isLt; omega
  have flag := drawTrace_flag (s := s) x_other y_other bound
  rw [hitBefore_iff, ← traces.flag] at flag
  refine ⟨_, exec_drw_inside inside, fun px py => ?_, fun hit => ?_, fun no_hit => ?_, drawn_frame x y n s⟩
  · rw [State.markDirty_pixel, traces.screen, drawTrace_toggles x_other y_other bound, spriteCovers_iff]
  · simp only [spriteCovers_iff] at hit
    rw [State.markDirty_reg, flag, if_pos hit]
  · simp only [spriteCovers_iff] at no_hit
    rw [State.markDirty_reg, flag, if_neg no_hit]

/-! ### The same sprite twice (R163, C3) -/

/-- What a sprite covers depends on the coordinates, I and memory alone. -/
theorem spriteCovers_congr (reg_x : t.reg x = s.reg x) (reg_y : t.reg y = s.reg y) (index : t.i = s.i)
    (mem : ∀ a, t.mem.read a = s.mem.read a) : SpriteCovers t x y n px py ↔ SpriteCovers s x y n px py := by
  simp only [SpriteCovers, reg_x, reg_y, index, mem]

/-- Settles O36: the second draw toggles the pixels that the first did, and finds 1 where the first found 0. -/
theorem drawTwiceRestoresScreen : Obligations.DrawTwiceRestoresScreen := fun x y n s x_other y_other inside => by
  obtain ⟨t, first, toggled, -, -, -, regs, -, frame⟩ := drawTogglesCoveredPixels x y n s x_other y_other inside
  have index : t.i = s.i := frame .index (by decide)
  have mem : ∀ a, t.mem.read a = s.mem.read a := frame .memory (by decide)
  have covers : ∀ px py, SpriteCovers t x y n.toNat px py ↔ SpriteCovers s x y n.toNat px py := fun px py =>
    spriteCovers_congr (regs x x_other) (regs y y_other) index mem
  obtain ⟨u, second, toggled_again, hit, no_hit, -⟩ :=
    drawTogglesCoveredPixels x y n t x_other y_other (index ▸ inside)
  simp only [covers] at toggled_again hit no_hit
  have found_zero : ∀ px py, SpriteCovers s x y n.toNat px py → (t.pixel px py = true ↔ s.pixel px py = false) :=
    fun px py covered => by
      have flipped := (toggled px py).mpr covered
      revert flipped
      cases t.pixel px py <;> cases s.pixel px py <;> decide
  refine ⟨t, u, first, second, fun px py => ?_, fun flag => ?_, fun ⟨px, py, covered, zero⟩ => ?_⟩
  · by_cases covered : SpriteCovers s x y n.toNat px py
    · have flipped := (toggled px py).mpr covered
      have flipped_back := (toggled_again px py).mpr covered
      revert flipped flipped_back
      cases u.pixel px py <;> cases t.pixel px py <;> cases s.pixel px py <;> decide
    · exact (not_not.mp (mt (toggled_again px py).mp covered)).trans (not_not.mp (mt (toggled px py).mp covered))
  · by_contra none_zero
    have unhit := no_hit fun ⟨px, py, covered, one⟩ => none_zero ⟨px, py, covered, (found_zero px py covered).mp one⟩
    exact absurd (flag.symm.trans unhit) (by decide)
  · exact hit ⟨px, py, covered, (found_zero px py covered).mpr zero⟩

end Sys2Proof.Machine
end
